-- ==== Sys2Proof/Word.lean ====
section
/-! DEFINITION. The word types of the block and their plainest arithmetic (spec 00_scope.md R8, R10). -/

namespace Sys2Proof

/-- One byte: a frame byte, a device id, a handle, a sequence number (R8). -/
abbrev Byte := BitVec 8

/-- Sixteen bits: a CRC, a nonce, a group id (R8). -/
abbrev Half := BitVec 16

/-- A register or a command word: 32 bits (R8). -/
abbrev Word := BitVec 32

/-- The 128-bit key (R8). -/
abbrev Key := BitVec 128

end Sys2Proof
end

