-- ==== Sys2Proof/Syntax.lean ====
section
/-! DEFINITION. The commands of the block: one constructor for each row of spec/opcode_table.json, with the operands
of 30_encoding.md R91 to R93. An operand that the block adds or compares is the unsigned integer it stands for (R92);
one that it only moves is the bits it is. -/

namespace Sys2Proof

/-- PS: the polynomial CRC_COMPUTE uses (R93). -/
inductive PolySel where
  | ibm
  | alt
  deriving DecidableEq, Repr

/-- Q: the queue a command names (R93). -/
inductive QueueId where
  | hot
  | cold
  deriving DecidableEq, Repr

/-- The seven commands (R94). -/
inductive Instr where
  /-- CRC_COMPUTE, format C (R175). -/
  | crcCompute (ps : PolySel) (off len : Nat)
  /-- FRAME_SIZE, format S (R120). -/
  | frameSize (type len : Nat)
  /-- ENCODE, format N (R131). -/
  | encode
  /-- DECODE, format N (R137). -/
  | decode
  /-- Q_PUSH, format P (R195). -/
  | qPush (q : QueueId) (hp : Bool) (kind : Nat) (handle len : Byte)
  /-- Q_POP, format Q (R199). -/
  | qPop (q : QueueId)
  /-- ARB_NEXT, format N (R203). -/
  | arbNext
  deriving DecidableEq, Repr

end Sys2Proof
end

