-- ==== Sys2Proof/WellFormed.lean ====
section
/-! DEFINITION. Which terms of `Instr` are commands: each operand fits the field 30_encoding.md R91 gives it.
A value that fits its field and that the command rejects (TYPE 2, KIND 13) is well formed (R96). -/

namespace Sys2Proof

/-- Every operand of the command fits its field (R91). -/
def WellFormed : Instr → Bool
  | .crcCompute _ off len => decide (off < 256) && decide (len < 256)
  | .frameSize type len => decide (type < 16) && decide (len < 256)
  | .encode => true
  | .decode => true
  | .qPush _ _ kind _ _ => decide (kind < 16)
  | .qPop _ => true
  | .arbNext => true

end Sys2Proof
end

