-- ==== Sys2Proof/Decode.lean ====
section
/-! DEFINITION. The command word (30_encoding.md R90 to R96): the opcode map as a table, the decoder over it (total on
every 32-bit word, a word no row selects rejected by name), and after it the encoder from the same formats. -/

namespace Sys2Proof

/-- Why a word is no command (R95). Either reason ends in `result(ILLEGAL, 0)`, so neither stops the machine. -/
inductive DecodeError where
  /-- Bits 7:0 are no opcode of R94. -/
  | undefinedOpcode (op : Byte)
  /-- Bits 7:0 are an opcode of R94 and a reserved bit of its format is 1. -/
  | reservedBits (op : Byte)
  deriving DecidableEq, Repr

/-- One row of the opcode map: a word `w` selects it when `w &&& mask = pattern` (R94). -/
structure OpRow where
  pattern : Word
  mask : Word
  /-- The operands of the row's format, read out of the word (R91, R92). -/
  read : Word → Instr

/-- PS as bit 8 gives it (R93). -/
def polyOfBit (b : Bool) : PolySel := if b then .alt else .ibm

/-- Q as bit 8 gives it (R93). -/
def queueOfBit (b : Bool) : QueueId := if b then .cold else .hot

/-- The opcode map of R94, in its order. -/
def opRows : List OpRow :=
  [ ⟨0x00000001, 0x0000FEFF, fun w =>
      .crcCompute (polyOfBit (w.getLsbD 8)) (w.extractLsb' 16 8).toNat (w.extractLsb' 24 8).toNat⟩,
    ⟨0x00000010, 0xFF00F0FF, fun w => .frameSize (w.extractLsb' 8 4).toNat (w.extractLsb' 16 8).toNat⟩,
    ⟨0x00000011, 0xFFFFFFFF, fun _ => .encode⟩,
    ⟨0x00000012, 0xFFFFFFFF, fun _ => .decode⟩,
    ⟨0x00000020, 0x00000CFF, fun w =>
      .qPush (queueOfBit (w.getLsbD 8)) (w.getLsbD 9) (w.extractLsb' 12 4).toNat (w.extractLsb' 16 8)
        (w.extractLsb' 24 8)⟩,
    ⟨0x00000021, 0xFFFFFEFF, fun w => .qPop (queueOfBit (w.getLsbD 8))⟩,
    ⟨0x00000022, 0xFFFFFFFF, fun _ => .arbNext⟩ ]

/-- The word selects the row (R94). -/
def OpRow.selects (r : OpRow) (w : Word) : Bool := w &&& r.mask == r.pattern

/-- The opcode byte of a row: bits 7:0 of its pattern (R90). -/
def OpRow.opcode (r : OpRow) : Byte := r.pattern.extractLsb' 0 8

/-- The opcode byte of a command word, bits 7:0 (R90). -/
def opByte (w : Word) : Byte := w.extractLsb' 0 8

/-- The decoder: the row the word selects, or the name of what is wrong with the word (R94, R95). -/
def decodeWord (w : Word) : Except DecodeError Instr :=
  match opRows.find? (fun r => r.selects w) with
  | some r => .ok (r.read w)
  | none =>
    if opRows.any (fun r => r.opcode == opByte w) then .error (.reservedBits (opByte w))
    else .error (.undefinedOpcode (opByte w))

/-- The instruction the decoder reads from a table row's bits. A command is one whole word written to CMD (R90), and no
byte order reaches a register (20_memory.md R66), so the table's bit k is bit k of the word; bits from `nbits` up are 0. -/
def decodeTableWord (nbits w : Nat) : Option Instr :=
  match decodeWord (BitVec.ofNat 32 (w % 2 ^ nbits)) with
  | .ok i => some i
  | .error _ => none

/-- Bit 8 of a word that names a polynomial (R93). -/
def PolySel.bit : PolySel → BitVec 1
  | .ibm => 0
  | .alt => 1

/-- Bit 8 of a word that names a queue (R93). -/
def QueueId.bit : QueueId → BitVec 1
  | .hot => 0
  | .cold => 1

/-- The opcode of each command (R94). -/
def Instr.opcode : Instr → Byte
  | .crcCompute _ _ _ => 0x01
  | .frameSize _ _ => 0x10
  | .encode => 0x11
  | .decode => 0x12
  | .qPush _ _ _ _ _ => 0x20
  | .qPop _ => 0x21
  | .arbNext => 0x22

/-- The encoder: the five formats of R91, most significant field first. -/
def encodeWord : Instr → Word
  | .crcCompute ps off len => BitVec.ofNat 8 len ++ BitVec.ofNat 8 off ++ 0#7 ++ ps.bit ++ 0x01#8
  | .frameSize type len => 0#8 ++ BitVec.ofNat 8 len ++ 0#4 ++ BitVec.ofNat 4 type ++ 0x10#8
  | .encode => 0#24 ++ 0x11#8
  | .decode => 0#24 ++ 0x12#8
  | .qPush q hp kind handle len =>
    len ++ handle ++ BitVec.ofNat 4 kind ++ 0#2 ++ BitVec.ofBool hp ++ q.bit ++ 0x20#8
  | .qPop q => 0#23 ++ q.bit ++ 0x21#8
  | .arbNext => 0#24 ++ 0x22#8

end Sys2Proof
end

