-- ==== Sys2Proof/Config.lean ====
section
/-! DEFINITION. What the spec leaves OPEN (00_scope.md R7; 93_implementation_defined.md Part 1): constants without a
body, so that nothing in Lean can evaluate one or prove a value of it, and whatever is proved holds for every value.
The parameters to which R7 gives a value stand in Machine/Params.lean. -/

namespace Sys2Proof

/-- The two places the version nibble of frame byte 0 may have: `P_NIBBLE_ORDER` (R7, R100). -/
inductive NibbleOrder where
  | versionHigh
  | versionLow
  deriving DecidableEq, Repr

/-- The two OPEN functions of the cipher as one argument of the codec (R7).
Only arguments of operations have this type, never a field of the state. -/
structure Cipher where
  /-- `P_KEYSTREAM(K', j)`, keystream byte `j` under the per-frame key (R125). -/
  keystream : Key → Nat → Byte
  /-- `P_NONCE_MIX(group, nonce)` (R126). -/
  nonceMix : Half → Half → Key

/-- `P_KEYSTREAM`, OPEN (R7, R125). Log entry 7. -/
opaque Config.keystream : Key → Nat → Byte

/-- `P_NONCE_MIX`, OPEN (R7, R126). Log entry 7. -/
opaque Config.nonceMix : Half → Half → Key

/-- The cipher of this hardware: whatever the two OPEN functions are. -/
def Config.cipher : Cipher := ⟨Config.keystream, Config.nonceMix⟩

/-- `P_RNG`: the value of the n-th nonce draw, under no law (R38; 93 U4). Log entry 5. -/
opaque Config.nonceDraw : Nat → Half

/-- The value FRAME_BUF byte `i` takes at the reset numbered `epoch`, under no law (R36; 93 U1). Log entry 6. -/
opaque Config.resetByte : (epoch : Nat) → (i : Nat) → Byte

/-- `P_BASE` divided by 0x200: OPEN (R7; 93 U5). Log entry 4. -/
opaque Config.windowNumber : Nat

/-- `P_BASE`, the bus address of register offset 0x000: a multiple of 0x200 (R7). -/
def Config.base : Nat := 0x200 * Config.windowNumber

end Sys2Proof
end

