-- ==== Sys2Proof/Machine/Params.lean ====
section
/-! DEFINITION. The parameters to which the spec gives a value (00_scope.md R7) and its code tables (10_state.md R27;
30_encoding.md R104, R106). The OPEN parameters stand in Config.lean. -/

namespace Sys2Proof.Machine

open Sys2Proof

/-- `P_VERSION` (R2, R7). Log entry 9. -/
abbrev Params.version : BitVec 4 := 1

/-- `P_NIBBLE_ORDER` (R7, R100). Log entry 9. -/
abbrev Params.nibbleOrder : NibbleOrder := .versionHigh

/-- `P_TYPE_STANDARD` (R7, R104). -/
abbrev Params.typeStandard : Nat := 0

/-- `P_TYPE_ACK` (R7, R104). -/
abbrev Params.typeAck : Nat := 1

/-- `P_TYPE_GWOUT` (R7, R104): rejected with TYPE. -/
abbrev Params.typeGwOut : Nat := 2

/-- `P_TYPE_GWIN` (R7, R104): rejected with TYPE. -/
abbrev Params.typeGwIn : Nat := 3

/-- `P_MAX_PAYLOAD` (R7; 90_conflicts.md C2). -/
abbrev Params.maxPayload : Nat := 244

/-- `P_BUF_SIZE` (R7). -/
abbrev Params.bufSize : Nat := 256

/-- `P_CRC_POLY_IBM` (R7, R171). -/
abbrev Params.polyIbm : Half := 0x8005

/-- `P_CRC_POLY_ALT` (R7, R171). Log entry 9. -/
abbrev Params.polyAlt : Half := 0x1021

/-- `P_CODEC_CRC_SEED` (R7, R178). Log entry 9. -/
abbrev Params.codecSeed : Half := 0xFFFF

/-- How many event kinds there are: 0 to 12 (R106). -/
abbrev Params.kindCount : Nat := 13

/-- The size of the block's window in bytes (R21, R61). -/
abbrev Params.windowSize : Nat := 0x200

/-- SM_STATE code IDLE (R27). -/
abbrev Params.stateIdle : BitVec 4 := 0

/-- The states of the protocol state machine (R27); the block tells only IDLE from the rest. -/
inductive SmStateName where
  | idle | cad | rxing | skippingAck | waitSlotTxAck | txingAck | txing | waitBeforeListeningForAck | rxingAck | restart
  deriving DecidableEq, Repr

/-- The state codes of R27. -/
def stateCode : SmStateName → BitVec 4
  | .idle => 0
  | .cad => 1
  | .rxing => 2
  | .skippingAck => 3
  | .waitSlotTxAck => 4
  | .txingAck => 5
  | .txing => 6
  | .waitBeforeListeningForAck => 7
  | .rxingAck => 8
  | .restart => 9

/-- The event kinds (R106). -/
inductive EventKind where
  | enter | exit | txReq | txDone | rxMsg | rxErr | atCmd | cadDone | cadTimeout | timeout | rxTimeout | txTimeout | unblock
  deriving DecidableEq, Repr

/-- The kind codes of R106. -/
def kindCode : EventKind → Nat
  | .enter => 0
  | .exit => 1
  | .txReq => 2
  | .txDone => 3
  | .rxMsg => 4
  | .rxErr => 5
  | .atCmd => 6
  | .cadDone => 7
  | .cadTimeout => 8
  | .timeout => 9
  | .rxTimeout => 10
  | .txTimeout => 11
  | .unblock => 12

end Sys2Proof.Machine
end

