-- ==== Sys2Proof/Machine/State.lean ====
section
/-! DEFINITION. The state of the block (10_state.md R20 to R43), the events at its port, the reasons a step can stop,
and the state after reset (70_reset_and_hazards.md R250). A register is stored as its fields: its reserved bits have no
storage and read 0 (20_memory.md R64); Machine/Operands.lean and Machine/Flags.lean give the 32-bit words. -/

namespace Sys2Proof.Machine

open Sys2Proof

/-- The result codes of 60_exceptions.md R220; codes 0x0C to 0xFF are never written. -/
inductive ResultCode where
  | ok | illegal | range | version | type | length | crc | notForMe | addr | full | empty | kind
  deriving DecidableEq, Repr

/-- RESULT (R23). -/
structure Result where
  code : ResultCode
  op : Byte
  value : Half
  deriving DecidableEq, Repr

/-- CFG_ID (R29). -/
structure CfgId where
  myId : Byte
  groupId : Half
  deriving DecidableEq, Repr

/-- MSG_HDR (R34). -/
structure MsgHdr where
  type : BitVec 4
  len : Byte
  nonce : Half
  deriving DecidableEq, Repr

/-- MSG_ADDR (R35). -/
structure MsgAddr where
  dest : Byte
  src : Byte
  seq : Byte
  exp : Byte
  deriving DecidableEq, Repr

/-- EVT_OUT (R37). -/
structure EvtOut where
  valid : Bool
  srcq : QueueId
  hp : Bool
  kind : BitVec 4
  handle : Byte
  len : Byte
  deriving DecidableEq, Repr

/-- An event (R33, R39): the block moves its four fields and interprets only the kind, at the push. -/
structure Event where
  kind : BitVec 4
  hp : Bool
  handle : Byte
  len : Byte
  deriving DecidableEq, Repr

/-- An event queue: a ring of sixteen slots (R33). -/
structure Queue where
  slots : Vector Event 16
  head : Fin 16
  count : Fin 17
  deriving DecidableEq, Repr

/-- FRAME_BUF (R36): the bytes written since reset, as cells of strictly rising index below 256. An index that is not
listed has not been written since the reset numbered `epoch`, and reads as the draw of that reset. -/
structure Memory where
  cells : List Host.Cell
  epoch : Nat
  deriving DecidableEq, Repr

/-- What can happen at the block's inputs (00_scope.md R6): the host's access primitives (20_memory.md R61), at a
window offset and `n` bytes wide, and the reset input (R250). -/
inductive PortEvent where
  | read (off n : Nat)
  /-- The value is the low `n` bytes of `v`. -/
  | write (off n : Nat) (v : Word)
  | reset
  deriving DecidableEq, Repr

/-- What the port answered to the last event. -/
inductive Response where
  /-- No access has been answered since reset. -/
  | idle
  /-- A read: its `n` bytes, zero-extended. -/
  | data (n : Nat) (v : Word)
  /-- A write was performed. -/
  | done
  deriving DecidableEq, Repr

/-- The state: every register with storage, both queues and FRAME_BUF (R20), then the model's own four pieces: the
events waiting at the port, the port's last answer, the number of nonces drawn, and (in `buf`) the number of resets. -/
structure State where
  result : Result
  smState : BitVec 4
  cfgId : CfgId
  key : Vector Word 4
  crcSeed : Half
  frameLen : Byte
  msgHdr : MsgHdr
  msgAddr : MsgAddr
  evtOut : EvtOut
  hotq : Queue
  coldq : Queue
  buf : Memory
  pending : List PortEvent
  response : Response
  draws : Nat
  deriving DecidableEq, Repr

/-- The one fault of the block. -/
inductive Fault where
  /-- Raised by an access below offset 0x200 that 20_memory.md R62 does not list (R61, R221). Safe: the block's state
  would be unchanged, and the model stops where other agents' accesses would go on. -/
  | busError (off : Nat)
  deriving DecidableEq, Repr

/-- What the model gives no meaning. -/
inductive Refusal where
  /-- An instruction without a meaning; no arm of `exec` uses it. Safe. -/
  | notModelled (mnemonic : String)
  /-- Raised by an access at offset 0x200 or above, which the block does not decode and the platform answers (R61; 93
  U9). Safe: nothing is claimed of such an access. -/
  | outsideWindow (off : Nat)
  deriving DecidableEq, Repr

/-- The event of a slot that has never been written: never observable (R33). DESIGN CHOICE, safe. Log entry 8. -/
def Event.blank : Event := ⟨0, false, 0, 0⟩

/-- An empty queue after reset: count 0, head 0 (R33). -/
def Queue.reset : Queue := ⟨Vector.replicate 16 Event.blank, 0, 0⟩

/-- The state after reset (R250), every field at the value its rule in 10_state.md gives. -/
def State.reset : State where
  result := ⟨.ok, 0, 0⟩
  smState := 9
  cfgId := ⟨0, 0⟩
  key := Vector.replicate 4 0
  crcSeed := 0xFFFF
  frameLen := 0
  msgHdr := ⟨0, 0, 0⟩
  msgAddr := ⟨0, 0, 0, 0⟩
  evtOut := ⟨false, .hot, false, 0, 0, 0⟩
  hotq := Queue.reset
  coldq := Queue.reset
  buf := ⟨[], 0⟩
  pending := []
  response := .idle
  draws := 0

end Sys2Proof.Machine
end

