-- ==== Sys2Proof/Machine/Ops.lean ====
section
/-! DEFINITION. The named operations over FRAME_BUF and the queues, the updates of the state that several commands
share, the reset step, and the host's access primitives. The block takes no exception and returns from none
(60_exceptions.md R227, R228), so there is no operation for either. -/

namespace Sys2Proof.Machine

open Sys2Proof

/-! ### FRAME_BUF -/

/-- The byte written at index `i`, if any. -/
def Memory.find (i : Nat) : List Host.Cell → Option Byte
  | [] => none
  | (a, v) :: rest => if a = i then some v else Memory.find i rest

/-- The cells with byte `v` at index `i`, in rising order. -/
def Memory.insert (i : Nat) (v : Byte) : List Host.Cell → List Host.Cell
  | [] => [(i, v)]
  | (a, u) :: rest =>
    if i < a then (i, v) :: (a, u) :: rest
    else if a = i then (i, v) :: rest
    else (a, u) :: Memory.insert i v rest

/-- What an index that nothing has written since reset reads as: the draw of that reset (R36; 93 U1). -/
def Memory.unwritten (m : Memory) (i : Nat) : Byte := Config.resetByte m.epoch i

/-- `buf[i]` (00_scope.md R11). -/
def Memory.read (m : Memory) (i : Nat) : Byte := (Memory.find i m.cells).getD (m.unwritten i)

/-- `buf[i] <- v` (R11). -/
def Memory.write (m : Memory) (i : Nat) (v : Byte) : Memory := { m with cells := Memory.insert i v m.cells }

/-- The bytes `buf[off .. off+len-1]`. -/
def Memory.bytes (m : Memory) (off len : Nat) : List Byte := (List.range len).map fun k => m.read (off + k)

/-- The bytes written one after the other from index `off` on. -/
def Memory.writeBytes (m : Memory) (off : Nat) : List Byte → Memory
  | [] => m
  | v :: rest => (m.write off v).writeBytes (off + 1) rest

/-- The cells stand in strictly rising order, none below `lo` and all below 256. -/
def Memory.rising (lo : Nat) : List Host.Cell → Bool
  | [] => true
  | (a, _) :: rest => decide (lo ≤ a) && decide (a < Params.bufSize) && Memory.rising (a + 1) rest

/-- The canonical form: strictly rising indices below 256. An index that is not listed has no fixed value, so no
listed value can equal it and no write removes a cell. Log entry 6. -/
def Memory.wf (m : Memory) : Bool := Memory.rising 0 m.cells

/-! ### The queues (43_event_queues.md R191) -/

/-- `slot[(head + k) mod 16]`. -/
def Queue.slot (q : Queue) (k : Nat) : Event := q.slots[(q.head.val + k) % 16]

/-- The queue's content, oldest first (10_state.md R33). -/
def Queue.content (q : Queue) : List Event := (List.range q.count.val).map q.slot

/-- `qpush`: none is FULL, the queue unchanged (R191, R192). -/
def Queue.push (q : Queue) (e : Event) : Option Queue :=
  if h : q.count.val = 16 then none
  else some
    { slots := q.slots.set ((q.head.val + q.count.val) % 16) e
      head := q.head
      count := ⟨q.count.val + 1, by omega⟩ }

/-- `qpop`: none is EMPTY, the queue unchanged (R191). -/
def Queue.pop (q : Queue) : Option (Event × Queue) :=
  if q.count.val = 0 then none
  else some (q.slot 0,
    { slots := q.slots
      head := ⟨(q.head.val + 1) % 16, by omega⟩
      count := ⟨q.count.val - 1, by omega⟩ })

/-! ### Updates of the state -/

/-- The queue a command names (R93). -/
def State.queue (s : State) : QueueId → Queue
  | .hot => s.hotq
  | .cold => s.coldq

/-- The state with one queue replaced. -/
def State.setQueue (s : State) (q : QueueId) (x : Queue) : State :=
  match q with
  | .hot => { s with hotq := x }
  | .cold => { s with coldq := x }

/-- The state with RESULT replaced. -/
def State.setResult (s : State) (r : Result) : State := { s with result := r }

/-- The state with EVT_OUT replaced. -/
def State.setEvtOut (s : State) (e : EvtOut) : State := { s with evtOut := e }

/-- The state with FRAME_BUF replaced. -/
def State.setBuf (s : State) (m : Memory) : State := { s with buf := m }

/-- The state after the reset input: every piece of the block's state at its reset value, every FRAME_BUF byte drawn
anew (R250, R36). The events still waiting at the port wait on, and the counters of the free values go on. Log entry 3. -/
def State.resetBlock (s : State) : State :=
  { State.reset with
    buf := ⟨[], s.buf.epoch + 1⟩
    pending := s.pending
    draws := s.draws }

/-! ### The host's access primitives (20_memory.md R61) -/

/-- The window offset of a bus address; none below `P_BASE`, where no access reaches the block. Log entry 4. -/
def windowOffset (addr : Nat) : Option Nat :=
  if Config.base ≤ addr then some (addr - Config.base) else none

/-- An event joins the port's order as the last one (R70). -/
def State.present (s : State) (e : PortEvent) : State := { s with pending := s.pending ++ [e] }

/-- `BusRead(addr, n)` as a host agent issues it (R61). -/
def State.hostRead (s : State) (addr n : Nat) : State :=
  match windowOffset addr with
  | some off => s.present (.read off n)
  | none => s

/-- `BusWrite(addr, n, v)` as a host agent issues it (R61). -/
def State.hostWrite (s : State) (addr n : Nat) (v : Word) : State :=
  match windowOffset addr with
  | some off => s.present (.write off n v)
  | none => s

end Sys2Proof.Machine
end

