-- ==== Sys2Proof/Machine/Operands.lean ====
section
/-! DEFINITION. The operand forms: the fields of the registers as 32-bit words and back (10_state.md R27 to R37;
20_memory.md R64), the key (R30), frame byte 0 (41_frame_codec.md R121), big-endian pairs (00_scope.md R11), and the
message types a frame may have (30_encoding.md R104). -/

namespace Sys2Proof.Machine

open Sys2Proof

/-! ### Register words: most significant field first, reserved bits 0 -/

/-- SM_STATE (R27). -/
def smStateWord (x : BitVec 4) : Word := 0#28 ++ x

/-- CFG_ID (R29). -/
def cfgIdWord (c : CfgId) : Word := c.groupId ++ 0#8 ++ c.myId

/-- CRC_SEED (R31). -/
def crcSeedWord (x : Half) : Word := 0#16 ++ x

/-- FRAME_LEN (R32). -/
def frameLenWord (x : Byte) : Word := 0#24 ++ x

/-- MSG_HDR (R34). -/
def msgHdrWord (h : MsgHdr) : Word := h.nonce ++ h.len ++ 0#4 ++ h.type

/-- MSG_ADDR (R35). -/
def msgAddrWord (a : MsgAddr) : Word := a.exp ++ a.seq ++ a.src ++ a.dest

/-- EVT_OUT.SRCQ (R37). -/
def queueBit : QueueId → BitVec 1
  | .hot => 0
  | .cold => 1

/-- EVT_OUT (R37). -/
def evtOutWord (e : EvtOut) : Word :=
  e.len ++ e.handle ++ e.kind ++ 0#9 ++ BitVec.ofBool e.hp ++ queueBit e.srcq ++ BitVec.ofBool e.valid

/-- The fields a write to SM_STATE stores (R27, R64). -/
def smStateOfWord (w : Word) : BitVec 4 := w.extractLsb' 0 4

/-- The fields a write to CFG_ID stores (R29, R64). -/
def cfgIdOfWord (w : Word) : CfgId := ⟨w.extractLsb' 0 8, w.extractLsb' 16 16⟩

/-- The field a write to CRC_SEED stores (R31, R64). -/
def crcSeedOfWord (w : Word) : Half := w.extractLsb' 0 16

/-- The field a write to FRAME_LEN stores (R32, R64). -/
def frameLenOfWord (w : Word) : Byte := w.extractLsb' 0 8

/-- MSG_HDR after a write: TYPE and LEN stored, NONCE kept (R34, R64). -/
def msgHdrOfWord (old : MsgHdr) (w : Word) : MsgHdr := ⟨w.extractLsb' 0 4, w.extractLsb' 8 8, old.nonce⟩

/-- The fields a write to MSG_ADDR stores (R35). -/
def msgAddrOfWord (w : Word) : MsgAddr :=
  ⟨w.extractLsb' 0 8, w.extractLsb' 8 8, w.extractLsb' 16 8, w.extractLsb' 24 8⟩

/-- EVT_OUT of an event a pop returned from queue `q` (R199, R203). -/
def evtOutOf (q : QueueId) (e : Event) : EvtOut := ⟨true, q, e.hp, e.kind, e.handle, e.len⟩

/-- EVT_OUT of a pop that found nothing: 0x00000000 (R37). -/
def evtOutNone : EvtOut := ⟨false, .hot, false, 0, 0, 0⟩

/-! ### The key -/

/-- `KEY`: KEY0 most significant, so that K[0] is (R30). -/
def State.keyValue (s : State) : Key := s.key[0] ++ s.key[1] ++ s.key[2] ++ s.key[3]

/-! ### Bytes of the frame -/

/-- `hdr0(v, t)`: frame byte 0 (R121). -/
def hdr0 (order : NibbleOrder) (v t : BitVec 4) : Byte :=
  match order with
  | .versionHigh => v ++ t
  | .versionLow => t ++ v

/-- `verOf(b)` (R121). -/
def verOf (order : NibbleOrder) (b : Byte) : BitVec 4 :=
  match order with
  | .versionHigh => b.extractLsb' 4 4
  | .versionLow => b.extractLsb' 0 4

/-- `typeOf(b)` (R121). -/
def typeOf (order : NibbleOrder) (b : Byte) : BitVec 4 :=
  match order with
  | .versionHigh => b.extractLsb' 0 4
  | .versionLow => b.extractLsb' 4 4

/-- `BE16(hi, lo)` (R11, R65). -/
def be16 (hi lo : Byte) : Half := hi ++ lo

/-- Bits 15:8. -/
def highByte (x : Half) : Byte := x.extractLsb' 8 8

/-- Bits 7:0. -/
def lowByte (x : Half) : Byte := x.extractLsb' 0 8

/-- The message types the block builds and parses (R104). -/
inductive FrameType where
  | standard
  | ack
  deriving DecidableEq, Repr

/-- The type a code names; none is rejected with TYPE (R104). -/
def frameTypeOf (code : Nat) : Option FrameType :=
  if code = Params.typeStandard then some .standard
  else if code = Params.typeAck then some .ack
  else none

/-- The code of a message type (R104). -/
def FrameType.code : FrameType → BitVec 4
  | .standard => BitVec.ofNat 4 Params.typeStandard
  | .ack => BitVec.ofNat 4 Params.typeAck

/-- `frameSize(t, N)` (R120). -/
def frameBytes (t : FrameType) (n : Nat) : Nat :=
  match t with
  | .standard => 11 + n
  | .ack => 12

end Sys2Proof.Machine
end

