-- ==== Sys2Proof/Machine/Flags.lean ====
section
/-! DEFINITION. The block's condition codes: RESULT, written by every command (10_state.md R23, R24; 60_exceptions.md
R220), and STATUS, derived from the queues and SM_STATE at each read (R25). -/

namespace Sys2Proof.Machine

open Sys2Proof

/-- The numeric result codes (R220). -/
def codeByte : ResultCode → Byte
  | .ok => 0x00
  | .illegal => 0x01
  | .range => 0x02
  | .version => 0x03
  | .type => 0x04
  | .length => 0x05
  | .crc => 0x06
  | .notForMe => 0x07
  | .addr => 0x08
  | .full => 0x09
  | .empty => 0x0A
  | .kind => 0x0B

/-- RESULT as a word (R23). -/
def resultWord (r : Result) : Word := r.value ++ r.op ++ codeByte r.code

/-- `result(code, value)` for a command whose low byte is `op`: VALUE is 0 unless CODE is OK (R23). -/
def State.report (s : State) (op : Byte) (code : ResultCode) (value : Half) : State :=
  s.setResult ⟨code, op, if code = .ok then value else 0⟩

/-- The next ARB_NEXT returns an event (R25, R203). -/
def State.eligible (s : State) : Bool :=
  decide (s.hotq.count.val > 0) || (decide (s.smState = Params.stateIdle) && decide (s.coldq.count.val > 0))

/-- STATUS as a word (R25). -/
def statusWord (s : State) : Word :=
  0#11 ++ BitVec.ofBool s.eligible
    ++ BitVec.ofBool (decide (s.coldq.count.val = 16)) ++ BitVec.ofBool (decide (s.coldq.count.val = 0))
    ++ BitVec.ofBool (decide (s.hotq.count.val = 16)) ++ BitVec.ofBool (decide (s.hotq.count.val = 0))
    ++ 0#3 ++ BitVec.ofNat 5 s.coldq.count.val ++ 0#3 ++ BitVec.ofNat 5 s.hotq.count.val

end Sys2Proof.Machine
end

