-- ==== Sys2Proof/Machine/Crc.lean ====
section
/-! DEFINITION. The CRC engine (42_crc_engine.md): the function of R172 and the command CRC_COMPUTE. -/

namespace Sys2Proof.Machine

open Sys2Proof

/-- One shift of the engine: left, and the polynomial added when bit 15 and the data bit differ (R172, R174). -/
def crcShift (poly : Half) (c : Half) (bit : Bool) : Half :=
  if c.getLsbD 15 != bit then (c <<< 1) ^^^ poly else c <<< 1

/-- `crcStep`: one byte, most significant bit first (R172, R173). -/
def crcStep (poly : Half) (c : Half) (b : Byte) : Half :=
  [7, 6, 5, 4, 3, 2, 1, 0].foldl (fun c i => crcShift poly c (b.getLsbD i)) c

/-- `crc16(bytes, poly, seed, inv)` (R172). -/
def crc16 (bytes : List Byte) (poly seed : Half) (inv : Bool) : Half :=
  let c := bytes.foldl (crcStep poly) seed
  if inv then ~~~c else c

/-- `crc16_ibm(bytes, seed)` (R171, R172). -/
def crc16Ibm (bytes : List Byte) (seed : Half) : Half := crc16 bytes Params.polyIbm seed true

/-- `crc16_alt(bytes, seed)` (R171, R172). -/
def crc16Alt (bytes : List Byte) (seed : Half) : Half := crc16 bytes Params.polyAlt seed false

/-- The CRC of the polynomial PS selects (R93, R175). -/
def crcOf (ps : PolySel) (bytes : List Byte) (seed : Half) : Half :=
  match ps with
  | .ibm => crc16Ibm bytes seed
  | .alt => crc16Alt bytes seed

/-- `frameCrc(L)`: the CRC of an L-byte frame, over every byte before the CRC field (R122; 90_conflicts.md C1). -/
def frameCrc (m : Memory) (size : Nat) : Half := crc16Ibm (m.bytes 0 (size - 2)) Params.codecSeed

/-- CRC_COMPUTE (R175). -/
def execCrcCompute (ps : PolySel) (off len : Nat) (s : State) : Host.Outcome State Fault Refusal :=
  .next <|
    if off + len > Params.bufSize then s.report 0x01 .range 0
    else s.report 0x01 .ok (crcOf ps (s.buf.bytes off len) s.crcSeed)

end Sys2Proof.Machine
end

