-- ==== Sys2Proof/Machine/Codec.lean ====
section
/-! DEFINITION. The frame codec (41_frame_codec.md): the cipher of R123 to R127 and the commands FRAME_SIZE, ENCODE and
DECODE. The cipher's two OPEN functions and the nonce are arguments here; the meanings supply the hardware's. -/

namespace Sys2Proof.Machine

open Sys2Proof

/-- Keystream byte by byte of the frame with this nonce, under the per-frame key
`KEY ⊕ P_NONCE_MIX(GROUP_ID, nonce)` (R125, R126). -/
def frameKeystream (c : Cipher) (s : State) (nonce : Half) : Nat → Byte :=
  c.keystream (s.keyValue ^^^ c.nonceMix s.cfgId.groupId nonce)

/-- `crypt(L, nonce)`: bytes 6 to L-1, each XORed with its keystream byte (R123, R124, R127). -/
def crypt (ks : Nat → Byte) (size : Nat) (m : Memory) : Memory :=
  (List.range (size - 6)).foldl (fun b j => b.write (6 + j) (b.read (6 + j) ^^^ ks j)) m

/-! ### FRAME_SIZE -/

/-- FRAME_SIZE (R120). -/
def execFrameSize (type len : Nat) (s : State) : Host.Outcome State Fault Refusal :=
  .next <|
    match frameTypeOf type with
    | some .standard =>
      if len > Params.maxPayload then s.report 0x10 .length 0
      else s.report 0x10 .ok (BitVec.ofNat 16 (frameBytes .standard len))
    | some .ack => s.report 0x10 .ok (BitVec.ofNat 16 (frameBytes .ack len))
    | none => s.report 0x10 .type 0

/-! ### ENCODE -/

/-- A destination ENCODE refuses with ADDR: 0x00 and 0xFB to 0xFE (R105, R131). -/
def badDest (d : Byte) : Bool := d == 0x00 || (decide (0xFB ≤ d.toNat) && decide (d.toNat ≤ 0xFE))

/-- N of the message in MSG_HDR: LEN for a Standard message, 0 for an Ack (R131). -/
def payloadLen (t : FrameType) (len : Byte) : Nat :=
  match t with
  | .standard => len.toNat
  | .ack => 0

/-- The checks of ENCODE in their order (R131): the first that fails, or the type and payload length. -/
def encodeChecks (s : State) : Except ResultCode (FrameType × Nat) :=
  match frameTypeOf s.msgHdr.type.toNat with
  | none => .error .type
  | some t =>
    if payloadLen t s.msgHdr.len > Params.maxPayload then .error .length
    else if badDest s.msgAddr.dest then .error .addr
    else .ok (t, payloadLen t s.msgHdr.len)

/-- The bytes ENCODE writes before the payload: header, then destId, srcId and sequence, and an Ack's expectedSeq
(R101 to R103, R131). -/
def frameHead (t : FrameType) (n : Nat) (nonce : Half) (a : MsgAddr) : List Byte :=
  [hdr0 Params.nibbleOrder Params.version t.code, BitVec.ofNat 8 n, 0x00, 0x00, highByte nonce, lowByte nonce,
    a.dest, a.src, a.seq] ++
  match t with
  | .standard => []
  | .ack => [a.exp]

/-- The frame in plaintext, its CRC written after the bytes it covers (R122, R131). -/
def buildPlain (t : FrameType) (n : Nat) (nonce : Half) (a : MsgAddr) (m : Memory) : Memory :=
  let headed := m.writeBytes 0 (frameHead t n nonce a)
  let c := frameCrc headed (frameBytes t n)
  headed.writeBytes (frameBytes t n - 2) [highByte c, lowByte c]

/-- ENCODE under a cipher and with the nonce a draw would give (R131, R132). A failing ENCODE writes RESULT alone and
takes no draw. -/
def encodeWith (c : Cipher) (nonce : Half) (s : State) : State :=
  match encodeChecks s with
  | .error code => s.report 0x11 code 0
  | .ok (t, n) =>
    { s with
      buf := crypt (frameKeystream c s nonce) (frameBytes t n) (buildPlain t n nonce s.msgAddr s.buf)
      frameLen := BitVec.ofNat 8 (frameBytes t n)
      msgHdr := { s.msgHdr with nonce := nonce }
      draws := s.draws + 1 }.report 0x11 .ok (BitVec.ofNat 16 (frameBytes t n))

/-- ENCODE: the hardware's cipher, and the next draw of the nonce source (R38, R131). -/
def execEncode (s : State) : Host.Outcome State Fault Refusal :=
  .next (encodeWith Config.cipher (Config.nonceDraw s.draws) s)

/-! ### DECODE -/

/-- The checks DECODE makes before it decrypts, in their order (R137, R138): the first that fails, or the type and
payload length the header gives. -/
def decodeChecks (s : State) : Except ResultCode (FrameType × Nat) :=
  let size := s.frameLen.toNat
  if size = 0 then .error .length
  else if verOf Params.nibbleOrder (s.buf.read 0) ≠ Params.version then .error .version
  else
    match frameTypeOf (typeOf Params.nibbleOrder (s.buf.read 0)).toNat with
    | none => .error .type
    | some t =>
      let n := payloadLen t (s.buf.read 1)
      if n > Params.maxPayload ∨ size ≠ frameBytes t n then .error .length
      else .ok (t, n)

/-- A decrypted destId DECODE accepts: this node's, or for a Standard frame broadcast (R141). -/
def accepts (t : FrameType) (myId d : Byte) : Bool :=
  match t with
  | .standard => d == myId || d == 0xFF
  | .ack => d == myId

/-- The nonce of the frame in FRAME_BUF (R101, R137). -/
def frameNonce (m : Memory) : Half := be16 (m.read 4) (m.read 5)

/-- The CRC field of an L-byte frame (R65). -/
def crcField (m : Memory) (size : Nat) : Half := be16 (m.read (size - 2)) (m.read (size - 1))

/-- MSG_ADDR.EXP after DECODE: an Ack's expectedSeq, 0 for a Standard frame (R137, R142). -/
def decodedExp (t : FrameType) (m : Memory) : Byte :=
  match t with
  | .standard => 0
  | .ack => m.read 9

/-- DECODE under a cipher (R137, R142, R145). From decryption on FRAME_BUF holds the decrypted bytes, whatever the
result. -/
def decodeWith (c : Cipher) (s : State) : State :=
  match decodeChecks s with
  | .error code => s.report 0x12 code 0
  | .ok (t, n) =>
    let size := s.frameLen.toNat
    let nonce := frameNonce s.buf
    let plain := crypt (frameKeystream c s nonce) size s.buf
    let opened := s.setBuf plain
    if frameCrc plain size ≠ crcField plain size then opened.report 0x12 .crc 0
    else if accepts t s.cfgId.myId (plain.read 6) = false then opened.report 0x12 .notForMe 0
    else
      { opened with
        msgHdr := ⟨t.code, BitVec.ofNat 8 n, nonce⟩
        msgAddr :=
          { dest := plain.read 6
            src := plain.read 7
            seq := plain.read 8
            exp := decodedExp t plain } }.report 0x12 .ok (BitVec.ofNat 16 size)

/-- DECODE: the hardware's cipher (R137). -/
def execDecode (s : State) : Host.Outcome State Fault Refusal :=
  .next (decodeWith Config.cipher s)

end Sys2Proof.Machine
end

