-- ==== Sys2Proof/Machine/Queues.lean ====
section
/-! DEFINITION. The event queues and the arbiter (43_event_queues.md): Q_PUSH, Q_POP and ARB_NEXT. -/

namespace Sys2Proof.Machine

open Sys2Proof

/-- Q_PUSH (R195): KIND is checked before FULL; VALUE is the count after the push. -/
def execQPush (q : QueueId) (hp : Bool) (kind : Nat) (handle len : Byte) (s : State) :
    Host.Outcome State Fault Refusal :=
  .next <|
    if kind ≥ Params.kindCount then s.report 0x20 .kind 0
    else
      match (s.queue q).push ⟨BitVec.ofNat 4 kind, hp, handle, len⟩ with
      | none => s.report 0x20 .full 0
      | some x => (s.setQueue q x).report 0x20 .ok (BitVec.ofNat 16 x.count.val)

/-- Take the oldest event of queue `q` into EVT_OUT, or report EMPTY (R199, R203); VALUE is the count after the pop. -/
def takeEvent (op : Byte) (q : QueueId) (s : State) : State :=
  match (s.queue q).pop with
  | none => (s.setEvtOut evtOutNone).report op .empty 0
  | some (e, x) => ((s.setQueue q x).setEvtOut (evtOutOf q e)).report op .ok (BitVec.ofNat 16 x.count.val)

/-- Q_POP (R199): SM_STATE is not tested (R200). -/
def execQPop (q : QueueId) (s : State) : Host.Outcome State Fault Refusal := .next (takeEvent 0x21 q s)

/-- The queue the arbiter serves: hot first, cold only in Idle (R202, R203). -/
def arbiterChoice (s : State) : Option QueueId :=
  if s.hotq.count.val > 0 then some .hot
  else if s.smState = Params.stateIdle ∧ s.coldq.count.val > 0 then some .cold
  else none

/-- ARB_NEXT (R203). -/
def execArbNext (s : State) : Host.Outcome State Fault Refusal :=
  .next <|
    match arbiterChoice s with
    | some q => takeEvent 0x22 q s
    | none => (s.setEvtOut evtOutNone).report 0x22 .empty 0

end Sys2Proof.Machine
end

