-- ==== Sys2Proof/Machine/Dispatch.lean ====
section
/-! DEFINITION. The meaning of each command (30_encoding.md R94): one arm per constructor of Instr. -/

namespace Sys2Proof.Machine

open Sys2Proof

def exec (i : Instr) (s : State) : Host.Outcome State Fault Refusal :=
  match i with
  | .crcCompute ps off len => Sys2Proof.Machine.execCrcCompute ps off len s
  | .frameSize type len => Sys2Proof.Machine.execFrameSize type len s
  | .encode => Sys2Proof.Machine.execEncode s
  | .decode => Sys2Proof.Machine.execDecode s
  | .qPush q hp kind handle len => Sys2Proof.Machine.execQPush q hp kind handle len s
  | .qPop q => Sys2Proof.Machine.execQPop q s
  | .arbNext => Sys2Proof.Machine.execArbNext s

end Sys2Proof.Machine
end

