-- ==== Sys2Proof/Machine/Bus.lean ====
section
/-! DEFINITION. The bus port (20_memory.md R60 to R71): which accesses are legal, what each does, and the command a
write to CMD executes (10_state.md R22; 30_encoding.md R95). -/

namespace Sys2Proof.Machine

open Sys2Proof

/-- The registers of 10_state.md R21. -/
inductive Reg where
  | cmd | result | status | smState | cfgId
  | key (i : Fin 4)
  | crcSeed | frameLen | msgHdr | msgAddr | evtOut
  deriving DecidableEq, Repr

/-- The window offset of a register (R21). -/
def Reg.offset : Reg → Nat
  | .cmd => 0x000
  | .result => 0x004
  | .status => 0x008
  | .smState => 0x00C
  | .cfgId => 0x010
  | .key i => 0x014 + 4 * i.val
  | .crcSeed => 0x024
  | .frameLen => 0x028
  | .msgHdr => 0x02C
  | .msgAddr => 0x030
  | .evtOut => 0x034

/-- The fourteen registers, in the order of their offsets (R21). -/
def regList : List Reg :=
  [.cmd, .result, .status, .smState, .cfgId, .key 0, .key 1, .key 2, .key 3, .crcSeed, .frameLen, .msgHdr, .msgAddr,
    .evtOut]

/-- The register at an offset; none where no register starts (R21, R62). -/
def regAt (off : Nat) : Option Reg := regList.find? (fun r => r.offset == off)

/-- What a legal access names. -/
inductive Target where
  | reg (r : Reg)
  /-- FRAME_BUF byte `i`. -/
  | byte (i : Nat)
  deriving DecidableEq, Repr

/-- The legal accesses of R62: four bytes at a register's offset, one byte in 0x100 to 0x1FF. -/
def target (off n : Nat) : Option Target :=
  if n = 4 then (regAt off).map .reg
  else if n = 1 ∧ 0x100 ≤ off ∧ off < Params.windowSize then some (.byte (off - 0x100))
  else none

/-- The word a register reads as (R21 to R37, R64). -/
def readReg (s : State) : Reg → Word
  | .cmd => 0
  | .result => resultWord s.result
  | .status => statusWord s
  | .smState => smStateWord s.smState
  | .cfgId => cfgIdWord s.cfgId
  | .key i => s.key[i]
  | .crcSeed => crcSeedWord s.crcSeed
  | .frameLen => frameLenWord s.frameLen
  | .msgHdr => msgHdrWord s.msgHdr
  | .msgAddr => msgAddrWord s.msgAddr
  | .evtOut => evtOutWord s.evtOut

/-- The value a legal read returns, zero-extended (R62). -/
def readTarget (s : State) : Target → Word
  | .reg r => readReg s r
  | .byte i => 0#24 ++ s.buf.read i

/-- A word that selects no row: `result(ILLEGAL, 0)` and nothing else (R95). -/
def execIllegal (w : Word) (s : State) : State := s.report (opByte w) .illegal 0

/-- The command a word written to CMD executes (R22, R95). -/
def execWord (w : Word) (s : State) : Host.Outcome State Fault Refusal :=
  match decodeWord w with
  | .ok i => exec i s
  | .error _ => .next (execIllegal w s)

/-- A write to a register: each RW field stored, read-only registers unchanged, CMD executed (R62, R64). -/
def writeReg (r : Reg) (w : Word) (s : State) : Host.Outcome State Fault Refusal :=
  match r with
  | .cmd => execWord w s
  | .result => .next s
  | .status => .next s
  | .smState => .next { s with smState := smStateOfWord w }
  | .cfgId => .next { s with cfgId := cfgIdOfWord w }
  | .key i => .next { s with key := s.key.set i w }
  | .crcSeed => .next { s with crcSeed := crcSeedOfWord w }
  | .frameLen => .next { s with frameLen := frameLenOfWord w }
  | .msgHdr => .next { s with msgHdr := msgHdrOfWord s.msgHdr w }
  | .msgAddr => .next { s with msgAddr := msgAddrOfWord w }
  | .evtOut => .next s

/-- What a legal write does (R62); a one-byte write takes the low byte. -/
def writeTarget (t : Target) (w : Word) (s : State) : Host.Outcome State Fault Refusal :=
  match t with
  | .reg r => writeReg r w s
  | .byte i => .next (s.setBuf (s.buf.write i (w.extractLsb' 0 8)))

/-- `BusRead` at the port (R61): outside the window no meaning, an access R62 does not list BusError. -/
def busRead (off n : Nat) (s : State) : Host.Outcome State Fault Refusal :=
  if off ≥ Params.windowSize then .refused (.outsideWindow off)
  else
    match target off n with
    | some t => .next { s with response := .data n (readTarget s t) }
    | none => .fault (.busError off)

/-- `BusWrite` at the port (R61). -/
def busWrite (off n : Nat) (w : Word) (s : State) : Host.Outcome State Fault Refusal :=
  if off ≥ Params.windowSize then .refused (.outsideWindow off)
  else
    match target off n with
    | some t => writeTarget t w { s with response := .done }
    | none => .fault (.busError off)

/-- One event at the port, performed whole (R60, R69, R250). -/
def perform (e : PortEvent) (s : State) : Host.Outcome State Fault Refusal :=
  match e with
  | .read off n => busRead off n s
  | .write off n w => busWrite off n w s
  | .reset => .next s.resetBlock

/-- The port with nothing to do: the block does nothing of its own (R204). Log entry 1. -/
def idle (s : State) : Host.Outcome State Fault Refusal := .next s

/-- The port's next event: the command word `w` written to CMD. -/
def cmdWrite (w : Word) : PortEvent := .write 0x000 4 w

/-- The port takes the first waiting event (R60, R70). -/
def portStep (s : State) : Host.Outcome State Fault Refusal :=
  match s.pending with
  | [] => idle s
  | e :: rest => perform e { s with pending := rest }

end Sys2Proof.Machine
end

