-- ==== Sys2Proof/Machine/Step.lean ====
section
/-! DEFINITION. One step of the block: one event at its port, performed whole (00_scope.md R12; 20_memory.md R60). -/

namespace Sys2Proof.Machine

open Sys2Proof

/-- One step (R12, R60). -/
def step (s : State) : Host.Outcome State Fault Refusal := portStep s

/-- The state in which the next step executes the command whose table bits are `w`: the block fetches nothing (R40), so
the command is the next event at the port, a write to CMD. Log entry 1. -/
def State.withFetchWord (s : State) (nbits w : Nat) : State :=
  { s with pending := cmdWrite (BitVec.ofNat 32 (w % 2 ^ nbits)) :: s.pending }

end Sys2Proof.Machine
end

