-- ==== Sys2Proof/Machine/Assembler.lean ====
section
/-! DEFINITION. The spec's assembly (30_encoding.md R97, R98): each line as the host accesses it stands for. -/

namespace Sys2Proof.Machine

open Sys2Proof

/-- A line of assembly: a command mnemonic or a host access of R97, or a pseudo-instruction of R98. -/
inductive Line where
  | crcIbm (off len : Nat)
  | crcAlt (off len : Nat)
  | fsize (type len : Nat)
  | encode
  | decode
  | pushHot (kind : Nat)
  | pushHotPayload (kind : Nat) (handle len : Byte)
  | pushCold (kind : Nat)
  | pushColdPayload (kind : Nat) (handle len : Byte)
  | popHot
  | popCold
  | next
  | sw (off : Nat) (v : Word)
  | lw (off : Nat)
  | sb (off : Nat) (v : Byte)
  | lb (off : Nat)
  | fsizeStd (len : Nat)
  | fsizeAck
  | setState (x : BitVec 4)
  | setCfg (myId : Byte) (groupId : Half)
  | setKey (k : Vector Byte 16)
  | setSeed (x : Half)
  | setLen (x : Byte)
  | setMsg (type : BitVec 4) (len dest src seq exp : Byte)
  | wrBuf (i : Nat) (bytes : List Byte)
  deriving DecidableEq, Repr

/-- The word of a command mnemonic is written to CMD (R97). -/
def cmdLine (i : Instr) : PortEvent := cmdWrite (encodeWord i)

/-- The window offset of FRAME_BUF byte `i` (R97). -/
def bufOffset (i : Nat) : Nat := 0x100 + i

/-- KEYi from its four key bytes, the first most significant (R98). -/
def keyWord (k : Vector Byte 16) (i : Fin 4) : Word :=
  k[4 * i.val] ++ k[4 * i.val + 1] ++ k[4 * i.val + 2] ++ k[4 * i.val + 3]

/-- The one-byte writes of `wrbuf` (R98). -/
def wrBufLines (i : Nat) : List Byte → List PortEvent
  | [] => []
  | b :: rest => .write (bufOffset i) 1 (0#24 ++ b) :: wrBufLines (i + 1) rest

/-- The host accesses a line stands for, in order (R97, R98). -/
def expand : Line → List PortEvent
  | .crcIbm off len => [cmdLine (.crcCompute .ibm off len)]
  | .crcAlt off len => [cmdLine (.crcCompute .alt off len)]
  | .fsize type len => [cmdLine (.frameSize type len)]
  | .encode => [cmdLine .encode]
  | .decode => [cmdLine .decode]
  | .pushHot kind => [cmdLine (.qPush .hot false kind 0 0)]
  | .pushHotPayload kind handle len => [cmdLine (.qPush .hot true kind handle len)]
  | .pushCold kind => [cmdLine (.qPush .cold false kind 0 0)]
  | .pushColdPayload kind handle len => [cmdLine (.qPush .cold true kind handle len)]
  | .popHot => [cmdLine (.qPop .hot)]
  | .popCold => [cmdLine (.qPop .cold)]
  | .next => [cmdLine .arbNext]
  | .sw off v => [.write off 4 v]
  | .lw off => [.read off 4]
  | .sb off v => [.write off 1 (0#24 ++ v)]
  | .lb off => [.read off 1]
  | .fsizeStd len => [cmdLine (.frameSize Params.typeStandard len)]
  | .fsizeAck => [cmdLine (.frameSize Params.typeAck 0)]
  | .setState x => [.write Reg.smState.offset 4 (smStateWord x)]
  | .setCfg myId groupId => [.write Reg.cfgId.offset 4 (cfgIdWord ⟨myId, groupId⟩)]
  | .setKey k => [0, 1, 2, 3].map fun i => .write (Reg.key i).offset 4 (keyWord k i)
  | .setSeed x => [.write Reg.crcSeed.offset 4 (crcSeedWord x)]
  | .setLen x => [.write Reg.frameLen.offset 4 (frameLenWord x)]
  | .setMsg type len dest src seq exp =>
    [.write Reg.msgHdr.offset 4 (msgHdrWord ⟨type, len, 0⟩),
     .write Reg.msgAddr.offset 4 (msgAddrWord ⟨dest, src, seq, exp⟩)]
  | .wrBuf i bytes => wrBufLines i bytes

end Sys2Proof.Machine
end

