-- ==== Sys2Proof/Safety.lean ====
section
/-! DEFINITION. What counts as a safe run, and the words in which the statements speak of the block: the invariant every
step keeps, the legal events, the bit masks of the registers, the opcode map as numbers, runs of several commands, and
the frame of the codec byte by byte. -/

namespace Sys2Proof.Machine

open Sys2Proof

/-! ### Invariant and legal events -/

/-- Every event the queue holds has one of the thirteen kinds: Q_PUSH refuses any other (R195). -/
def Queue.kindsOk (q : Queue) : Prop := ∀ e ∈ q.content, e.kind.toNat < 13

/-- What every step keeps. -/
structure State.Inv (s : State) : Prop where
  /-- FRAME_BUF keeps its canonical form, every cell one of its 256 bytes (R36, R72). -/
  bufWf : s.buf.wf = true
  /-- VALUE is 0 whenever CODE is not OK (R23). -/
  valueZero : s.result.code ≠ .ok → s.result.value = 0
  /-- No queued event has a kind Q_PUSH refuses (R195). -/
  hotKinds : s.hotq.kindsOk
  coldKinds : s.coldq.kindsOk
  /-- EVT_OUT reads 0 unless it holds an event (R37). -/
  evtZero : s.evtOut.valid = false → evtOutWord s.evtOut = 0

/-- An access the block answers without BusError, in the words of 20_memory.md R62. -/
def legalAccess (off n : Nat) : Prop := (n = 4 ∧ off % 4 = 0 ∧ off ≤ 0x034) ∨ (n = 1 ∧ 0x100 ≤ off ∧ off < 0x200)

/-- The event ends neither in a fault nor in a refusal. -/
def PortEvent.legal : PortEvent → Prop
  | .read off n => legalAccess off n
  | .write off n _ => legalAccess off n
  | .reset => True

/-! ### Registers -/

/-- The bits of a register that a host write stores (10_state.md R21 to R37). -/
def rwMask : Reg → Word
  | .cmd => 0x00000000
  | .result => 0x00000000
  | .status => 0x00000000
  | .smState => 0x0000000F
  | .cfgId => 0xFFFF00FF
  | .key _ => 0xFFFFFFFF
  | .crcSeed => 0x0000FFFF
  | .frameLen => 0x000000FF
  | .msgHdr => 0x0000FF0F
  | .msgAddr => 0xFFFFFFFF
  | .evtOut => 0x00000000

/-- The bits of a register that always read 0 (10_state.md R22 to R37). -/
def reservedMask : Reg → Word
  | .cmd => 0xFFFFFFFF
  | .result => 0x00000000
  | .status => 0xFFE0E0E0
  | .smState => 0xFFFFFFF0
  | .cfgId => 0x0000FF00
  | .key _ => 0x00000000
  | .crcSeed => 0xFFFF0000
  | .frameLen => 0xFFFFFF00
  | .msgHdr => 0x000000F0
  | .msgAddr => 0x00000000
  | .evtOut => 0x00000FF8

/-- The numeric result codes, as the table of 60_exceptions.md R220 prints them. -/
def resultCodes : List (ResultCode × Nat) :=
  [(.ok, 0x00), (.illegal, 0x01), (.range, 0x02), (.version, 0x03), (.type, 0x04), (.length, 0x05), (.crc, 0x06),
    (.notForMe, 0x07), (.addr, 0x08), (.full, 0x09), (.empty, 0x0A), (.kind, 0x0B)]

/-! ### Commands -/

/-- Match and mask of each row of 30_encoding.md R94, as that table prints them. -/
def opcodeMap : List (Word × Word) :=
  [(0x00000001, 0x0000FEFF), (0x00000010, 0xFF00F0FF), (0x00000011, 0xFFFFFFFF), (0x00000012, 0xFFFFFFFF),
    (0x00000020, 0x00000CFF), (0x00000021, 0xFFFFFEFF), (0x00000022, 0xFFFFFFFF)]

/-- Commands executed one after the other, stopping at the first that does not complete. -/
def runCommands : List Instr → State → Host.Outcome State Fault Refusal
  | [], s => .next s
  | i :: rest, s =>
    match exec i s with
    | .next t => runCommands rest t
    | .fault r => .fault r
    | .refused r => .refused r

/-- Events performed one after the other, stopping at the first that does not complete (20_memory.md R74). -/
def performAll : List PortEvent → State → Host.Outcome State Fault Refusal
  | [], s => .next s
  | e :: rest, s =>
    match perform e s with
    | .next t => performAll rest t
    | .fault r => .fault r
    | .refused r => .refused r

/-- Q_PUSH of an event to queue `q`. -/
def pushOf (q : QueueId) (e : Event) : Instr := .qPush q e.hp e.kind.toNat e.handle e.len

/-! ### Frames byte by byte (30_encoding.md R101 to R103; 41_frame_codec.md R131) -/

/-- Byte `i` of the plaintext frame of the message in MSG_HDR and MSG_ADDR, before its CRC field. -/
def plainByte (s : State) (t : FrameType) (n : Nat) (nonce : Half) (i : Nat) : Byte :=
  if i = 0 then (if t = .standard then 0x10 else 0x11)
  else if i = 1 then BitVec.ofNat 8 n
  else if i = 2 then 0x00
  else if i = 3 then 0x00
  else if i = 4 then nonce.extractLsb' 8 8
  else if i = 5 then nonce.extractLsb' 0 8
  else if i = 6 then s.msgAddr.dest
  else if i = 7 then s.msgAddr.src
  else if i = 8 then s.msgAddr.seq
  else if t = .ack ∧ i = 9 then s.msgAddr.exp
  else s.buf.read i

/-- The CRC of the first `k` bytes of a frame given by its bytes (R122). -/
def crcOfBytes (byte : Nat → Byte) (k : Nat) : Half := crc16Ibm ((List.range k).map byte) 0xFFFF

/-- Byte `i` of the plaintext frame of `size` bytes, CRC field included (R131). -/
def sealedByte (s : State) (t : FrameType) (n size : Nat) (nonce : Half) (i : Nat) : Byte :=
  if i = size - 2 then (crcOfBytes (plainByte s t n nonce) (size - 2)).extractLsb' 8 8
  else if i = size - 1 then (crcOfBytes (plainByte s t n nonce) (size - 2)).extractLsb' 0 8
  else plainByte s t n nonce i

/-- Keystream byte `j` of a frame with this nonce on this hardware (R125, R126). -/
def keystreamByte (s : State) (nonce : Half) (j : Nat) : Byte :=
  Config.keystream (s.keyValue ^^^ Config.nonceMix s.cfgId.groupId nonce) j

/-- ENCODE gets past its checks with a message of this type, payload length and frame size (R131). -/
def encodeAccepts (s : State) (t : FrameType) (n size : Nat) : Prop :=
  s.msgAddr.dest ≠ 0x00 ∧ ¬ (0xFB ≤ s.msgAddr.dest.toNat ∧ s.msgAddr.dest.toNat ≤ 0xFE) ∧
    match t with
    | .standard => s.msgHdr.type = 0 ∧ n = s.msgHdr.len.toNat ∧ n ≤ 244 ∧ size = 11 + n
    | .ack => s.msgHdr.type = 1 ∧ n = 0 ∧ size = 12

/-- DECODE gets past the checks before decryption, with a header of this type and payload length (R137, R139). -/
def headerAccepts (s : State) (t : FrameType) (n : Nat) : Prop :=
  (s.buf.read 0).extractLsb' 4 4 = 1#4 ∧
    match t with
    | .standard => (s.buf.read 0).extractLsb' 0 4 = 0#4 ∧ n = (s.buf.read 1).toNat ∧ n ≤ 244 ∧ s.frameLen.toNat = 11 + n
    | .ack => (s.buf.read 0).extractLsb' 0 4 = 1#4 ∧ n = 0 ∧ s.frameLen.toNat = 12

/-- The nonce of the frame in FRAME_BUF, big-endian at bytes 4 and 5 (R65). -/
def nonceInBuf (s : State) : Half := s.buf.read 4 ++ s.buf.read 5

/-- Byte `i` of FRAME_BUF after DECODE has decrypted it: bytes 6 to FRAME_LEN-1 are XORed (R127, R137). -/
def openedByte (s : State) (i : Nat) : Byte :=
  if 6 ≤ i ∧ i < s.frameLen.toNat then s.buf.read i ^^^ keystreamByte s (nonceInBuf s) (i - 6) else s.buf.read i

/-- The decrypted frame's CRC field is the CRC of the bytes before it (R122, R137). -/
def openedCrcOk (s : State) : Prop :=
  crcOfBytes (openedByte s) (s.frameLen.toNat - 2) =
    openedByte s (s.frameLen.toNat - 2) ++ openedByte s (s.frameLen.toNat - 1)

/-- The decrypted frame is for this node (R141). -/
def openedForMe (s : State) (t : FrameType) : Prop :=
  openedByte s 6 = s.cfgId.myId ∨ (t = .standard ∧ openedByte s 6 = 0xFF)

/-- `u` holds the frame `t` holds, and the key and group it was sealed under (R146). -/
def carriesFrame (t u : State) : Prop :=
  (∀ i, i < t.frameLen.toNat → u.buf.read i = t.buf.read i) ∧ u.frameLen = t.frameLen ∧ u.key = t.key ∧
    u.cfgId.groupId = t.cfgId.groupId

/-- As `carriesFrame`, with bit `k` of byte `j` flipped in transit (R147). -/
def carriesFlipped (t u : State) (j k : Nat) : Prop :=
  (∀ i, i < t.frameLen.toNat → u.buf.read i = if i = j then t.buf.read i ^^^ (1#8 <<< k) else t.buf.read i) ∧
    u.frameLen = t.frameLen ∧ u.key = t.key ∧ u.cfgId.groupId = t.cfgId.groupId

end Sys2Proof.Machine
end

