-- ==== Sys2Proof/Certificates/Slice0/Obligations.lean ====
section
/-! DEFINITION. The statements about the block, from the numbered rules of spec/. Each docstring names the rule it
formalises. -/

open Sys2Proof Sys2Proof.Machine

/-! ### Command words -/

/-- R91, R92, R94: the decoder reads back every command the encoder writes, with every operand. -/
def Obligations.DecodeOfEncodeIsTheCommand : Prop :=
  ∀ i : Instr, WellFormed i = true → decodeWord (encodeWord i) = .ok i

/-- R91, R92, R94: each command word is the encoding of the one command it decodes to, so no bit of a word is dropped. -/
def Obligations.EncodeOfDecodeIsTheWord : Prop :=
  ∀ (w : Word) (i : Instr), decodeWord w = .ok i → WellFormed i = true ∧ encodeWord i = w

/-- R94: a word that selects a row decodes to that row's command with the fields of the word as its operands (R91, R92);
a word that selects none is refused; no word selects two rows. -/
def Obligations.DecoderReadsTheRowAWordSelects : Prop :=
  (∀ w : Word,
    (w &&& 0x0000FEFF = 0x00000001 →
      decodeWord w = .ok (.crcCompute (if w.getLsbD 8 = true then .alt else .ibm) (w.extractLsb' 16 8).toNat
        (w.extractLsb' 24 8).toNat)) ∧
    (w &&& 0xFF00F0FF = 0x00000010 →
      decodeWord w = .ok (.frameSize (w.extractLsb' 8 4).toNat (w.extractLsb' 16 8).toNat)) ∧
    (w &&& 0xFFFFFFFF = 0x00000011 → decodeWord w = .ok .encode) ∧
    (w &&& 0xFFFFFFFF = 0x00000012 → decodeWord w = .ok .decode) ∧
    (w &&& 0x00000CFF = 0x00000020 →
      decodeWord w = .ok (.qPush (if w.getLsbD 8 = true then .cold else .hot) (w.getLsbD 9)
        (w.extractLsb' 12 4).toNat (w.extractLsb' 16 8) (w.extractLsb' 24 8))) ∧
    (w &&& 0xFFFFFEFF = 0x00000021 →
      decodeWord w = .ok (.qPop (if w.getLsbD 8 = true then .cold else .hot))) ∧
    (w &&& 0xFFFFFFFF = 0x00000022 → decodeWord w = .ok .arbNext) ∧
    ((∀ r ∈ opcodeMap, w &&& r.2 ≠ r.1) → ∃ e, decodeWord w = .error e)) ∧
  (∀ w : Word, ∀ r ∈ opcodeMap, ∀ r' ∈ opcodeMap, w &&& r.2 = r.1 → w &&& r'.2 = r'.1 → r = r')

/-- R94 and the examples of R120, R136, R175, R195, R199, R203: a few words and the commands they stand for. -/
def Obligations.SampleWordsDecode : Prop :=
  decodeWord 0x09000001 = .ok (.crcCompute .ibm 0 9) ∧
  decodeWord 0x05040101 = .ok (.crcCompute .alt 4 5) ∧
  decodeWord 0x00050010 = .ok (.frameSize 0 5) ∧
  decodeWord 0x00C80110 = .ok (.frameSize 1 200) ∧
  decodeWord 0x00000011 = .ok .encode ∧
  decodeWord 0x00000012 = .ok .decode ∧
  decodeWord 0x28072320 = .ok (.qPush .cold true 2 7 40) ∧
  decodeWord 0x00000121 = .ok (.qPop .cold) ∧
  decodeWord 0x00000022 = .ok .arbNext

/-- R97: the word of each of the twelve command mnemonics, as the assembler's table writes it: the five without operands
as numbers, the others with shifts and ors. -/
def Obligations.AssemblerWordsAreThoseOfTheTable : Prop :=
  (encodeWord .encode = 0x00000011 ∧ encodeWord .decode = 0x00000012 ∧ encodeWord (.qPop .hot) = 0x00000021 ∧
    encodeWord (.qPop .cold) = 0x00000121 ∧ encodeWord .arbNext = 0x00000022) ∧
  (∀ off len : Nat, off < 256 → len < 256 →
    encodeWord (.crcCompute .ibm off len) = BitVec.ofNat 32 len <<< 24 ||| BitVec.ofNat 32 off <<< 16 ||| 0x01 ∧
    encodeWord (.crcCompute .alt off len) =
      BitVec.ofNat 32 len <<< 24 ||| BitVec.ofNat 32 off <<< 16 ||| 1 <<< 8 ||| 0x01) ∧
  (∀ type len : Nat, type < 16 → len < 256 →
    encodeWord (.frameSize type len) = BitVec.ofNat 32 len <<< 16 ||| BitVec.ofNat 32 type <<< 8 ||| 0x10) ∧
  (∀ (kind : Nat) (handle len : Byte), kind < 16 →
    encodeWord (.qPush .hot true kind handle len) =
      len.setWidth 32 <<< 24 ||| handle.setWidth 32 <<< 16 ||| BitVec.ofNat 32 kind <<< 12 ||| 1 <<< 9 ||| 0x20 ∧
    encodeWord (.qPush .cold true kind handle len) =
      len.setWidth 32 <<< 24 ||| handle.setWidth 32 <<< 16 ||| BitVec.ofNat 32 kind <<< 12 ||| 1 <<< 9 ||| 1 <<< 8 |||
        0x20 ∧
    encodeWord (.qPush .hot false kind 0 0) = BitVec.ofNat 32 kind <<< 12 ||| 0x20 ∧
    encodeWord (.qPush .cold false kind 0 0) = BitVec.ofNat 32 kind <<< 12 ||| 1 <<< 8 ||| 0x20)

/-! ### Steps -/

/-- R22, R60: when the next event at the port is a write to CMD of a word that decodes to a well-formed command, the
step is that command's meaning. The port has moved past the event and answers that the write was performed.
`pending` and `response` are the model's port (log entries 1, 2). -/
def Obligations.StepRunsTheDecodedCommand : Prop :=
  ∀ (s : State) (w : Word) (rest : List PortEvent) (i : Instr),
    s.pending = .write 0x000 4 w :: rest → decodeWord w = .ok i → WellFormed i = true →
    step s = exec i { s with pending := rest, response := .done }

/-- R95: a word that selects no row writes `result(ILLEGAL, 0)` and changes nothing else.
`pending` and `response` are the model's port (log entries 1, 2). -/
def Obligations.IllegalWordWritesOnlyResult : Prop :=
  ∀ (s : State) (w : Word) (rest : List PortEvent),
    s.pending = .write 0x000 4 w :: rest → (¬ ∃ r ∈ opcodeMap, w &&& r.2 = r.1) →
    step s = .next
      { s with pending := rest, response := .done, result := ⟨.illegal, w.extractLsb' 0 8, 0⟩ }

/-- R60, R69, R74: the port performs the events that wait at it one by one in their order, each whole, whatever waits
behind them.
`pending` and `response` are the model's port (log entries 1, 2). -/
def Obligations.PortPerformsEventsInOrder : Prop :=
  ∀ (es more : List PortEvent) (s : State),
    Sys2Proof.core.run es.length { s with pending := es ++ more } = performAll es { s with pending := more }

/-- R222: every command completes, in every state and with every operand. -/
def Obligations.EveryCommandCompletes : Prop :=
  ∀ (i : Instr) (s : State), ∃ t, exec i s = .next t

/-! ### Reset -/

/-- R250: what every piece of state holds after reset. -/
def Obligations.ResetStateHoldsTheResetValues : Prop :=
  readReg State.reset .result = 0x00000000 ∧ readReg State.reset .status = 0x00050000 ∧
  readReg State.reset .smState = 0x00000009 ∧ readReg State.reset .cfgId = 0x00000000 ∧
  (∀ i, readReg State.reset (.key i) = 0x00000000) ∧ readReg State.reset .crcSeed = 0x0000FFFF ∧
  readReg State.reset .frameLen = 0x00000000 ∧ readReg State.reset .msgHdr = 0x00000000 ∧
  readReg State.reset .msgAddr = 0x00000000 ∧ readReg State.reset .evtOut = 0x00000000 ∧
  State.reset.hotq.count = 0 ∧ State.reset.hotq.head = 0 ∧ State.reset.coldq.count = 0 ∧ State.reset.coldq.head = 0 ∧
  State.reset.buf.cells = []

/-- R250: the reset input replaces the whole state of the block in one step; the accesses that wait, wait on. Every
FRAME_BUF byte reads as the draw of this reset (R36). That the counters of the free values go on is the model's
(log entry 3), and so is what each slot of the emptied queues holds (log entry 8): R33 leaves the slots unobservable, and
the spec's part is count 0, head 0 and no content.
`pending` and `response` are the model's port (log entries 1, 2). -/
def Obligations.ResetInputReplacesTheState : Prop :=
  ∀ (s : State) (rest : List PortEvent), s.pending = .reset :: rest →
    ∃ t, step s = .next t ∧
      t = { State.reset with buf := t.buf, pending := rest, draws := s.draws } ∧
      t.hotq.count = 0 ∧ t.hotq.head = 0 ∧ t.hotq.content = [] ∧
      t.coldq.count = 0 ∧ t.coldq.head = 0 ∧ t.coldq.content = [] ∧
      (∀ i, t.buf.read i = Config.resetByte (s.buf.epoch + 1) i)

/-! ### Invariants of every step -/

/-- R23, R36, R37, R195: the invariant holds after reset. -/
def Obligations.ResetStateMeetsTheInvariant : Prop := State.reset.Inv

/-- R23, R36, R37, R72, R195: every step keeps the invariant: FRAME_BUF's canonical form inside its 256 bytes, VALUE 0
unless CODE is OK, only the thirteen kinds in either queue, EVT_OUT 0 unless it holds an event. -/
def Obligations.StepKeepsTheInvariant : Prop :=
  ∀ s t : State, s.Inv → step s = .next t → t.Inv

/-! ### The bus -/

/-- R61, R62, R63, R221: below offset 0x200 an access raises BusError exactly when R62 does not list it.
`pending` and `response` are the model's port (log entries 1, 2). -/
def Obligations.BusErrorExactlyOnIllegalAccess : Prop :=
  (∀ (s : State) (off n : Nat) (rest : List PortEvent), s.pending = .read off n :: rest → off < 0x200 →
    (step s = .fault (.busError off) ↔ ¬ legalAccess off n)) ∧
  (∀ (s : State) (off n : Nat) (v : Word) (rest : List PortEvent), s.pending = .write off n v :: rest → off < 0x200 →
    (step s = .fault (.busError off) ↔ ¬ legalAccess off n))

/-- R61: the block does not decode an access at offset 0x200 or above; the model refuses it by name.
`pending` and `response` are the model's port (log entries 1, 2). -/
def Obligations.AccessOutsideTheWindowIsRefused : Prop :=
  (∀ (s : State) (off n : Nat) (rest : List PortEvent), s.pending = .read off n :: rest → 0x200 ≤ off →
    step s = .refused (.outsideWindow off)) ∧
  (∀ (s : State) (off n : Nat) (v : Word) (rest : List PortEvent), s.pending = .write off n v :: rest → 0x200 ≤ off →
    step s = .refused (.outsideWindow off))

/-- R222, 20_memory.md R61: an event that R62 lists, or a reset, ends in a next state, in every state.
`pending` and `response` are the model's port (log entries 1, 2). -/
def Obligations.LegalEventsComplete : Prop :=
  ∀ (s : State) (e : PortEvent) (rest : List PortEvent), s.pending = e :: rest → e.legal → ∃ t, step s = .next t

/-- R62, R64: a legal read answers with the register's word or the byte, and changes nothing of the block. The word of
each register is the sum of its fields at their bits (R22, R23, R27, R29 to R32, R34, R35, R37), RESULT.CODE the number
R220 gives the code; STATUS has a statement of its own.
`pending` and `response` are the model's port (log entries 1, 2). -/
def Obligations.LegalReadAnswersAndChangesNothing : Prop :=
  (∀ (s : State) (r : Reg) (rest : List PortEvent), s.pending = .read r.offset 4 :: rest →
    step s = .next { s with pending := rest, response := .data 4 (readReg s r) }) ∧
  (∀ (s : State) (i : Nat) (rest : List PortEvent), i < 256 → s.pending = .read (0x100 + i) 1 :: rest →
    step s = .next { s with pending := rest, response := .data 1 (0#24 ++ s.buf.read i) }) ∧
  (∀ s : State,
    readReg s .cmd = 0 ∧
    (∃ n, (s.result.code, n) ∈ resultCodes ∧
      (readReg s .result).toNat = n + 2 ^ 8 * s.result.op.toNat + 2 ^ 16 * s.result.value.toNat) ∧
    (readReg s .smState).toNat = s.smState.toNat ∧
    (readReg s .cfgId).toNat = s.cfgId.myId.toNat + 2 ^ 16 * s.cfgId.groupId.toNat ∧
    (∀ i, readReg s (.key i) = s.key[i]) ∧
    (readReg s .crcSeed).toNat = s.crcSeed.toNat ∧
    (readReg s .frameLen).toNat = s.frameLen.toNat ∧
    (readReg s .msgHdr).toNat =
      s.msgHdr.type.toNat + 2 ^ 8 * s.msgHdr.len.toNat + 2 ^ 16 * s.msgHdr.nonce.toNat ∧
    (readReg s .msgAddr).toNat =
      s.msgAddr.dest.toNat + 2 ^ 8 * s.msgAddr.src.toNat + 2 ^ 16 * s.msgAddr.seq.toNat +
        2 ^ 24 * s.msgAddr.exp.toNat ∧
    (readReg s .evtOut).toNat =
      s.evtOut.valid.toNat + 2 * (if s.evtOut.srcq = .cold then 1 else 0) + 2 ^ 2 * s.evtOut.hp.toNat +
        2 ^ 12 * s.evtOut.kind.toNat + 2 ^ 16 * s.evtOut.handle.toNat + 2 ^ 24 * s.evtOut.len.toNat)

/-- R64: a register write stores the written word's bits of each RW field and leaves every other bit of the register,
and every other register but the derived STATUS, as it was; each field takes the bits its rule names (R27, R29 to R32,
R34, R35), NONCE keeps its value; reserved bits read 0 in every state.
`pending` and `response` are the model's port (log entries 1, 2). -/
def Obligations.RegisterWriteStoresTheRwFields : Prop :=
  (∀ (s : State) (r : Reg) (w : Word) (rest : List PortEvent), r ≠ .cmd → r ≠ .status →
    s.pending = .write r.offset 4 w :: rest →
    ∃ t, step s = .next t ∧ t.pending = rest ∧ t.response = .done ∧
      readReg t r = readReg s r &&& ~~~rwMask r ||| w &&& rwMask r ∧
      (∀ r', r' ≠ r → r' ≠ .status → readReg t r' = readReg s r') ∧
      (∀ a, t.buf.read a = s.buf.read a) ∧ t.hotq = s.hotq ∧ t.coldq = s.coldq ∧ t.draws = s.draws ∧
      (r = .smState → t.smState = w.extractLsb' 0 4) ∧
      (r = .cfgId → t.cfgId.myId = w.extractLsb' 0 8 ∧ t.cfgId.groupId = w.extractLsb' 16 16) ∧
      (∀ i, r = .key i → t.key[i] = w) ∧
      (r = .crcSeed → t.crcSeed = w.extractLsb' 0 16) ∧
      (r = .frameLen → t.frameLen = w.extractLsb' 0 8) ∧
      (r = .msgHdr → t.msgHdr.type = w.extractLsb' 0 4 ∧ t.msgHdr.len = w.extractLsb' 8 8 ∧
        t.msgHdr.nonce = s.msgHdr.nonce) ∧
      (r = .msgAddr → t.msgAddr.dest = w.extractLsb' 0 8 ∧ t.msgAddr.src = w.extractLsb' 8 8 ∧
        t.msgAddr.seq = w.extractLsb' 16 8 ∧ t.msgAddr.exp = w.extractLsb' 24 8)) ∧
  (∀ (s : State) (r : Reg), readReg s r &&& reservedMask r = 0)

/-- R22, R23, R25, R37: a host write to RESULT, STATUS or EVT_OUT is ignored.
`pending` and `response` are the model's port (log entries 1, 2). -/
def Obligations.WritesToReadOnlyRegistersAreIgnored : Prop :=
  ∀ (s : State) (r : Reg) (w : Word) (rest : List PortEvent), r = .result ∨ r = .status ∨ r = .evtOut →
    s.pending = .write r.offset 4 w :: rest → step s = .next { s with pending := rest, response := .done }

/-- R36, R62: a one-byte write to FRAME_BUF stores its byte and changes no other byte and no register or queue.
`pending` and `response` are the model's port (log entries 1, 2). -/
def Obligations.BufferWriteStoresOneByte : Prop :=
  ∀ (s : State) (i : Nat) (w : Word) (rest : List PortEvent), i < 256 →
    s.pending = .write (0x100 + i) 1 w :: rest →
    ∃ t, step s = .next t ∧ t = { s with buf := t.buf, pending := rest, response := .done } ∧
      t.buf.read i = w.extractLsb' 0 8 ∧ (∀ a, a ≠ i → t.buf.read a = s.buf.read a)

/-- R70: a write other than one to CMD is idempotent: performed again at once, it changes nothing. -/
def Obligations.WritesOtherThanCmdAreIdempotent : Prop :=
  ∀ (s t : State) (off n : Nat) (w : Word), off ≠ 0x000 →
    perform (.write off n w) s = .next t → perform (.write off n w) t = .next t

/-- R25: every field of STATUS; STATUS after reset; host writes ignored.
`pending` and `response` are the model's port (log entries 1, 2). -/
def Obligations.StatusShowsQueuesAndEligibility : Prop :=
  (∀ s : State,
    ((readReg s .status).extractLsb' 0 5).toNat = s.hotq.content.length ∧
    (readReg s .status).extractLsb' 5 3 = 0 ∧
    ((readReg s .status).extractLsb' 8 5).toNat = s.coldq.content.length ∧
    (readReg s .status).extractLsb' 13 3 = 0 ∧
    ((readReg s .status).getLsbD 16 = true ↔ s.hotq.content.length = 0) ∧
    ((readReg s .status).getLsbD 17 = true ↔ s.hotq.content.length = 16) ∧
    ((readReg s .status).getLsbD 18 = true ↔ s.coldq.content.length = 0) ∧
    ((readReg s .status).getLsbD 19 = true ↔ s.coldq.content.length = 16) ∧
    ((readReg s .status).getLsbD 20 = true ↔
      s.hotq.content.length > 0 ∨ (s.smState = 0 ∧ s.coldq.content.length > 0)) ∧
    (readReg s .status).extractLsb' 21 11 = 0) ∧
  readReg State.reset .status = 0x00050000 ∧
  (∀ (s : State) (w : Word) (rest : List PortEvent), s.pending = .write 0x008 4 w :: rest →
    step s = .next { s with pending := rest, response := .done })

/-! ### Who writes what -/

/-- R28: only a host write to SM_STATE, or a reset, changes SM_STATE; a write stores the code whatever the codes are.
`pending` and `response` are the model's port (log entries 1, 2). -/
def Obligations.OnlyTheHostWritesSmState : Prop :=
  (∀ s t : State, step s = .next t → t.smState ≠ s.smState →
    ∃ rest, s.pending = .reset :: rest ∨ ∃ w, s.pending = .write 0x00C 4 w :: rest) ∧
  (∀ (i : Instr) (s t : State), exec i s = .next t → t.smState = s.smState) ∧
  (∀ (s : State) (w : Word) (rest : List PortEvent), s.pending = .write 0x00C 4 w :: rest →
    step s = .next { s with pending := rest, response := .done, smState := w.extractLsb' 0 4 })

/-- R43: no command writes CFG_ID, a KEY register or CRC_SEED, and none touches the port.
`pending` and `response` are the model's port (log entries 1, 2). -/
def Obligations.CommandsLeaveTheConfiguration : Prop :=
  ∀ (i : Instr) (s t : State), exec i s = .next t →
    t.cfgId = s.cfgId ∧ t.key = s.key ∧ t.crcSeed = s.crcSeed ∧ t.smState = s.smState ∧ t.pending = s.pending ∧
      t.response = s.response

/-- R43: a command that ends in a result other than OK writes only RESULT, but for DECODE's FRAME_BUF after decryption
and EVT_OUT of a pop that found nothing. -/
def Obligations.FailingCommandsWriteOnlyResult : Prop :=
  ∀ (i : Instr) (s t : State), exec i s = .next t → t.result.code ≠ .ok →
    t = { s with result := t.result } ∨
    (i = .decode ∧ (t.result.code = .crc ∨ t.result.code = .notForMe) ∧
      t = { s with result := t.result, buf := t.buf }) ∨
    (t.result.code = .empty ∧ ((∃ q, i = .qPop q) ∨ i = .arbNext) ∧
      t = { s with result := t.result, evtOut := t.evtOut } ∧ evtOutWord t.evtOut = 0)

/-- R24: commands write RESULT and nothing else but a reset does, and no command reads it.
`pending` and `response` are the model's port (log entries 1, 2). -/
def Obligations.ResultIsWrittenByCommandsAlone : Prop :=
  (∀ s t : State, step s = .next t → t.result ≠ s.result →
    ∃ rest, s.pending = .reset :: rest ∨ ∃ w, s.pending = .write 0x000 4 w :: rest) ∧
  (∀ (i : Instr) (s : State) (r : Result), exec i { s with result := r } = exec i s)

/-- R23: every word written to CMD, legal or not, leaves its low byte in RESULT.OP, and 0 in VALUE unless CODE is OK.
`pending` and `response` are the model's port (log entries 1, 2). -/
def Obligations.EveryCommandWordRecordsItsOpcode : Prop :=
  ∀ (s : State) (w : Word) (rest : List PortEvent), s.pending = .write 0x000 4 w :: rest →
    ∃ t, step s = .next t ∧ t.result.op = w.extractLsb' 0 8 ∧ (t.result.code ≠ .ok → t.result.value = 0)

/-! ### CRC_COMPUTE -/

/-- R175: RANGE when the range runs past buf[255]; otherwise OK with the CRC of the range under the chosen polynomial
from CRC_SEED. RESULT is all it writes. The last clause gives that CRC without the model's engine, as R172 and R173
define it: `c k` is the register after `k` bits of the range, each byte's bits taken from bit 7 down, the register shifted
left, the polynomial added when bit 15 and the data bit differ; VALUE is the last register, inverted for IBM. -/
def Obligations.CrcComputeReportsTheCrcOfTheRange : Prop :=
  (∀ (ps : PolySel) (off len : Nat) (s : State), off + len > 256 →
    exec (.crcCompute ps off len) s = .next { s with result := ⟨.range, 0x01, 0⟩ }) ∧
  (∀ (off len : Nat) (s : State), off + len ≤ 256 →
    exec (.crcCompute .ibm off len) s =
      .next { s with result :=
        ⟨.ok, 0x01, crc16Ibm ((List.range len).map fun k => s.buf.read (off + k)) s.crcSeed⟩ } ∧
    exec (.crcCompute .alt off len) s =
      .next { s with result :=
        ⟨.ok, 0x01, crc16Alt ((List.range len).map fun k => s.buf.read (off + k)) s.crcSeed⟩ }) ∧
  (∀ (ps : PolySel) (off len : Nat) (s : State) (c : Nat → Half), off + len ≤ 256 → c 0 = s.crcSeed →
    (∀ k, k < 8 * len →
      c (k + 1) =
        if (c k).getLsbD 15 = (s.buf.read (off + k / 8)).getLsbD (7 - k % 8) then c k <<< 1
        else (c k <<< 1) ^^^ (if ps = .ibm then 0x8005 else 0x1021)) →
    exec (.crcCompute ps off len) s =
      .next { s with result := ⟨.ok, 0x01, if ps = .ibm then ~~~c (8 * len) else c (8 * len)⟩ })

/-- R176: the CRC of no bytes is the seed, inverted for IBM, at any offset. -/
def Obligations.CrcOfNoBytesIsTheSeed : Prop :=
  ∀ (off : Nat) (s : State), off < 256 →
    exec (.crcCompute .ibm off 0) s = .next { s with result := ⟨.ok, 0x01, ~~~s.crcSeed⟩ } ∧
    exec (.crcCompute .alt off 0) s = .next { s with result := ⟨.ok, 0x01, s.crcSeed⟩ }

/-- R172, R174: the engine is linear over GF(2): the register of a sum of byte strings from a sum of seeds is the sum
of the registers. -/
def Obligations.CrcRegisterIsLinear : Prop :=
  ∀ (poly a b : Half) (x y : List Byte), x.length = y.length →
    crc16 (List.zipWith (· ^^^ ·) x y) poly (a ^^^ b) false = crc16 x poly a false ^^^ crc16 y poly b false

/-- R177: the CRC of a concatenation, and two CRC_COMPUTE commands that give the CRC of the whole range when the host
writes the first result, complemented for IBM, to CRC_SEED. -/
def Obligations.CrcChainsAcrossCommands : Prop :=
  (∀ (x y : List Byte) (a : Half), crc16Alt (x ++ y) a = crc16Alt y (crc16Alt x a)) ∧
  (∀ (x y : List Byte) (a : Half), crc16Ibm (x ++ y) a = crc16Ibm y (~~~crc16Ibm x a)) ∧
  (∀ (ps : PolySel) (off k l : Nat) (s t u whole : State), off + (k + l) ≤ 256 →
    exec (.crcCompute ps off k) s = .next t →
    exec (.crcCompute ps (off + k) l)
      { t with crcSeed := if ps = .ibm then ~~~t.result.value else t.result.value } = .next u →
    exec (.crcCompute ps off (k + l)) s = .next whole →
    u.result = whole.result)

/-- R147: the IBM CRC tells apart two byte strings that differ in exactly one bit. -/
def Obligations.CrcSeesEverySingleBitFlip : Prop :=
  ∀ (x y : List Byte) (b : Byte) (k : Nat) (a : Half), k < 8 →
    crc16Ibm (x ++ b :: y) a ≠ crc16Ibm (x ++ (b ^^^ (1#8 <<< k)) :: y) a

/-! ### FRAME_SIZE -/

/-- R120: 11 + LEN for a Standard message of at most 244 bytes, LENGTH above; 12 for an Ack whatever LEN; TYPE for any
other type. RESULT is all it writes. -/
def Obligations.FrameSizeReportsTheSize : Prop :=
  ∀ (type len : Nat) (s : State),
    (type = 0 → len ≤ 244 →
      exec (.frameSize type len) s = .next { s with result := ⟨.ok, 0x10, BitVec.ofNat 16 (11 + len)⟩ }) ∧
    (type = 0 → len > 244 → exec (.frameSize type len) s = .next { s with result := ⟨.length, 0x10, 0⟩ }) ∧
    (type = 1 → exec (.frameSize type len) s = .next { s with result := ⟨.ok, 0x10, 12⟩ }) ∧
    (type ≠ 0 → type ≠ 1 → exec (.frameSize type len) s = .next { s with result := ⟨.type, 0x10, 0⟩ })

/-- R43: CRC_COMPUTE and FRAME_SIZE write RESULT and nothing else: no register, no queue, no byte of FRAME_BUF. -/
def Obligations.CrcAndFrameSizeFrame : Prop :=
  ∀ (i : Instr) (s t : State), (∃ ps off len, i = .crcCompute ps off len) ∨ (∃ type len, i = .frameSize type len) →
    exec i s = .next t → t = { s with result := t.result } ∧ ∀ a, t.buf.read a = s.buf.read a

/-! ### The cipher -/

/-- R127, R128: `crypt` XORs bytes 6 to L-1 and writes no other byte, and performed twice it leaves every byte as it
was. -/
def Obligations.CryptIsAnInvolution : Prop :=
  ∀ (ks : Nat → Byte) (size : Nat) (m : Memory) (i : Nat),
    (crypt ks size m).read i = (if 6 ≤ i ∧ i < size then m.read i ^^^ ks (i - 6) else m.read i) ∧
    (crypt ks size (crypt ks size m)).read i = m.read i

/-! ### ENCODE -/

/-- R131, R132: ENCODE's refusals in their order, TYPE, LENGTH, ADDR; each writes RESULT and nothing else, and takes no
nonce draw. -/
def Obligations.EncodeRefusalsWriteOnlyResult : Prop :=
  ∀ s : State,
    (s.msgHdr.type ≠ 0 → s.msgHdr.type ≠ 1 → exec .encode s = .next { s with result := ⟨.type, 0x11, 0⟩ }) ∧
    (s.msgHdr.type = 0 → s.msgHdr.len.toNat > 244 → exec .encode s = .next { s with result := ⟨.length, 0x11, 0⟩ }) ∧
    ((s.msgHdr.type = 0 ∧ s.msgHdr.len.toNat ≤ 244) ∨ s.msgHdr.type = 1 →
      s.msgAddr.dest = 0x00 ∨ (0xFB ≤ s.msgAddr.dest.toNat ∧ s.msgAddr.dest.toNat ≤ 0xFE) →
      exec .encode s = .next { s with result := ⟨.addr, 0x11, 0⟩ })

/-- R131, R134: an ENCODE that passes its checks completes with OK and the frame's size, builds the frame byte by byte,
encrypts it from destId through the CRC, and changes nothing else. The nonce is the next free draw (R38). -/
def Obligations.EncodeBuildsTheSealedFrame : Prop :=
  ∀ (s : State) (ft : FrameType) (n size : Nat), encodeAccepts s ft n size →
    ∃ t, exec .encode s = .next t ∧
      t = { s with
        result := ⟨.ok, 0x11, BitVec.ofNat 16 size⟩
        buf := t.buf
        frameLen := BitVec.ofNat 8 size
        msgHdr := ⟨s.msgHdr.type, s.msgHdr.len, Config.nonceDraw s.draws⟩
        draws := s.draws + 1 } ∧
      ∀ i, t.buf.read i =
        if i < 6 then sealedByte s ft n size (Config.nonceDraw s.draws) i
        else if i < size then
          sealedByte s ft n size (Config.nonceDraw s.draws) i ^^^ keystreamByte s (Config.nonceDraw s.draws) (i - 6)
        else s.buf.read i

/-- R43, R134, R149: what ENCODE leaves unchanged, whatever its result: every register but RESULT, FRAME_LEN and
MSG_HDR.NONCE, both queues, and every byte of FRAME_BUF outside the frame it built. -/
def Obligations.EncodeFrame : Prop :=
  ∀ s t : State, exec .encode s = .next t →
    t = { s with
      result := t.result
      buf := t.buf
      frameLen := t.frameLen
      msgHdr := { s.msgHdr with nonce := t.msgHdr.nonce }
      draws := t.draws } ∧
    (∀ a, t.result.code ≠ .ok ∨ t.frameLen.toNat ≤ a → t.buf.read a = s.buf.read a)

/-- R133: ENCODE reads neither MY_ID nor CRC_SEED, nor EXP of a Standard message, nor LEN of an Ack. -/
def Obligations.EncodeIgnoresTheFieldsItDoesNotCheck : Prop :=
  (∀ (s t : State) (id : Byte) (seed : Half), exec .encode s = .next t →
    exec .encode { s with cfgId := ⟨id, s.cfgId.groupId⟩, crcSeed := seed } =
      .next { t with cfgId := ⟨id, t.cfgId.groupId⟩, crcSeed := seed }) ∧
  (∀ (s t : State) (x : Byte), s.msgHdr.type = 0 → exec .encode s = .next t →
    exec .encode { s with msgAddr := { s.msgAddr with exp := x } } =
      .next { t with msgAddr := { t.msgAddr with exp := x } }) ∧
  (∀ (s t : State) (x : Byte), s.msgHdr.type = 1 → exec .encode s = .next t →
    exec .encode { s with msgHdr := { s.msgHdr with len := x } } =
      .next { t with msgHdr := { t.msgHdr with len := x } })

/-- R148: when ENCODE returns OK, FRAME_SIZE of its type and length returns OK with the same VALUE, which is
FRAME_LEN. -/
def Obligations.EncodeAndFrameSizeAgree : Prop :=
  ∀ s t : State, exec .encode s = .next t → t.result.code = .ok →
    ∃ u, exec (.frameSize s.msgHdr.type.toNat s.msgHdr.len.toNat) s = .next u ∧ u.result.code = .ok ∧
      u.result.value = t.result.value ∧ t.frameLen.toNat = t.result.value.toNat

/-! ### DECODE -/

/-- R137, R138, R139: DECODE's checks before decryption, in their order; each failure writes RESULT and nothing else. -/
def Obligations.DecodeHeaderChecksInOrder : Prop :=
  ∀ s : State,
    (s.frameLen = 0 → exec .decode s = .next { s with result := ⟨.length, 0x12, 0⟩ }) ∧
    (s.frameLen ≠ 0 → (s.buf.read 0).extractLsb' 4 4 ≠ 1#4 →
      exec .decode s = .next { s with result := ⟨.version, 0x12, 0⟩ }) ∧
    (s.frameLen ≠ 0 → (s.buf.read 0).extractLsb' 4 4 = 1#4 → (s.buf.read 0).extractLsb' 0 4 ≠ 0#4 →
      (s.buf.read 0).extractLsb' 0 4 ≠ 1#4 → exec .decode s = .next { s with result := ⟨.type, 0x12, 0⟩ }) ∧
    (s.frameLen ≠ 0 → (s.buf.read 0).extractLsb' 4 4 = 1#4 → (s.buf.read 0).extractLsb' 0 4 = 0#4 →
      (s.buf.read 1).toNat > 244 ∨ s.frameLen.toNat ≠ 11 + (s.buf.read 1).toNat →
      exec .decode s = .next { s with result := ⟨.length, 0x12, 0⟩ }) ∧
    (s.frameLen ≠ 0 → (s.buf.read 0).extractLsb' 4 4 = 1#4 → (s.buf.read 0).extractLsb' 0 4 = 1#4 →
      s.frameLen.toNat ≠ 12 → exec .decode s = .next { s with result := ⟨.length, 0x12, 0⟩ })

/-- R137, R141, R142: a frame whose header passes is decrypted in place; then CRC, then NOT_FOR_ME, then the message
registers. FRAME_LEN is never written. -/
def Obligations.DecodeOpensTheFrame : Prop :=
  ∀ (s : State) (ft : FrameType) (n : Nat), headerAccepts s ft n →
    ∃ t, exec .decode s = .next t ∧ (∀ i, t.buf.read i = openedByte s i) ∧
      (¬ openedCrcOk s → t = { s with buf := t.buf, result := ⟨.crc, 0x12, 0⟩ }) ∧
      (openedCrcOk s → ¬ openedForMe s ft → t = { s with buf := t.buf, result := ⟨.notForMe, 0x12, 0⟩ }) ∧
      (openedCrcOk s → openedForMe s ft →
        t = { s with
          buf := t.buf
          msgHdr := ⟨if ft = .standard then 0 else 1, BitVec.ofNat 8 n, nonceInBuf s⟩
          msgAddr := ⟨openedByte s 6, openedByte s 7, openedByte s 8, if ft = .ack then openedByte s 9 else 0⟩
          result := ⟨.ok, 0x12, s.frameLen.setWidth 16⟩ })

/-- R43, R145, R149: what DECODE leaves unchanged, whatever its result: every register but RESULT, MSG_HDR and
MSG_ADDR, both queues, and every byte of FRAME_BUF outside 6 .. FRAME_LEN-1. -/
def Obligations.DecodeFrame : Prop :=
  ∀ s t : State, exec .decode s = .next t →
    t = { s with result := t.result, buf := t.buf, msgHdr := t.msgHdr, msgAddr := t.msgAddr } ∧
    (t.result.code ≠ .ok → t.msgHdr = s.msgHdr ∧ t.msgAddr = s.msgAddr) ∧
    (∀ a, a < 6 ∨ s.frameLen.toNat ≤ a → t.buf.read a = s.buf.read a)

/-- R140: with a frame of at least one byte, DECODE's result is VERSION exactly when the version nibble is not
P_VERSION, and it has then decrypted nothing. -/
def Obligations.VersionMismatchIsDecidedFirst : Prop :=
  ∀ s t : State, s.frameLen ≠ 0 → exec .decode s = .next t →
    (t.result.code = .version ↔ (s.buf.read 0).extractLsb' 4 4 ≠ 1#4) ∧
    (t.result.code = .version → t = { s with result := ⟨.version, 0x12, 0⟩ })

/-- R145: a failure before decryption writes only RESULT; after it the decrypted bytes stay and the registers do not
change; a second DECODE turns every byte back to what it was before the first. -/
def Obligations.DecodeFailureSideEffects : Prop :=
  (∀ s t : State, exec .decode s = .next t →
    t.result.code = .length ∨ t.result.code = .version ∨ t.result.code = .type → t = { s with result := t.result }) ∧
  (∀ s t : State, exec .decode s = .next t → t.result.code = .crc ∨ t.result.code = .notForMe →
    t = { s with result := t.result, buf := t.buf } ∧ ∀ i, t.buf.read i = openedByte s i) ∧
  (∀ s t u : State, exec .decode s = .next t →
    t.result.code = .ok ∨ t.result.code = .crc ∨ t.result.code = .notForMe → exec .decode t = .next u →
    ∀ i, u.buf.read i = s.buf.read i)

/-! ### ENCODE and DECODE together -/

/-- R146: DECODE of a frame ENCODE built, under the same key and group and for its destination, returns OK and the
message, for every cipher and every nonce; the meanings are these operations under the hardware's. An Ack to 0xFF comes
back NOT_FOR_ME unless MY_ID is 0xFF. -/
def Obligations.DecodeOfEncodeReturnsTheMessage : Prop :=
  (∀ s : State, exec .encode s = .next (encodeWith Config.cipher (Config.nonceDraw s.draws) s) ∧
    exec .decode s = .next (decodeWith Config.cipher s)) ∧
  (∀ (c : Cipher) (nonce : Half) (s u : State),
    (encodeWith c nonce s).result.code = .ok → carriesFrame (encodeWith c nonce s) u →
    (u.cfgId.myId = s.msgAddr.dest ∨ (s.msgHdr.type = 0 ∧ s.msgAddr.dest = 0xFF) →
      (decodeWith c u).result = ⟨.ok, 0x12, (encodeWith c nonce s).result.value⟩ ∧
      (decodeWith c u).msgHdr = ⟨s.msgHdr.type, if s.msgHdr.type = 0 then s.msgHdr.len else 0, nonce⟩ ∧
      (decodeWith c u).msgAddr =
        ⟨s.msgAddr.dest, s.msgAddr.src, s.msgAddr.seq, if s.msgHdr.type = 0 then 0 else s.msgAddr.exp⟩ ∧
      (s.msgHdr.type = 0 → ∀ i, 9 ≤ i → i < 9 + s.msgHdr.len.toNat →
        (decodeWith c u).buf.read i = s.buf.read i)) ∧
    (s.msgHdr.type = 1 → s.msgAddr.dest = 0xFF → u.cfgId.myId ≠ 0xFF →
      (decodeWith c u).result.code = .notForMe))

/-- R147: one flipped bit anywhere in the encrypted bytes of a frame ENCODE built gives CRC, for every cipher; a flip
in bytes 0 to 3 gives what R147 lists. What a flip in the nonce, bytes 4 and 5, gives R147 leaves open, and so does this
statement. -/
def Obligations.SingleBitFlipsOutsideTheNonceAreRefused : Prop :=
  ∀ (c : Cipher) (nonce : Half) (s u : State) (j k : Nat), k < 8 →
    (encodeWith c nonce s).result.code = .ok → carriesFlipped (encodeWith c nonce s) u j k →
    (6 ≤ j → j < (encodeWith c nonce s).frameLen.toNat → (decodeWith c u).result.code = .crc) ∧
    (j = 0 → (decodeWith c u).result.code = .version ∨ (decodeWith c u).result.code = .type ∨
      (decodeWith c u).result.code = .length ∨ (decodeWith c u).result.code = .crc) ∧
    (j = 1 → s.msgHdr.type = 0 → (decodeWith c u).result.code = .length) ∧
    (j = 1 → s.msgHdr.type = 1 → (decodeWith c u).result.code = .crc) ∧
    (j = 2 ∨ j = 3 → (decodeWith c u).result.code = .crc)

/-- R149: ENCODE and DECODE neither read nor write the queues, SM_STATE, CRC_SEED or EVT_OUT, and complete. -/
def Obligations.CodecIgnoresQueuesAndArbiter : Prop :=
  ∀ (i : Instr) (s : State) (hot cold : Queue) (st : BitVec 4) (seed : Half) (e : EvtOut), i = .encode ∨ i = .decode →
    ∃ t, exec i s = .next t ∧ t.hotq = s.hotq ∧ t.coldq = s.coldq ∧ t.smState = s.smState ∧ t.crcSeed = s.crcSeed ∧
      t.evtOut = s.evtOut ∧
      exec i { s with hotq := hot, coldq := cold, smState := st, crcSeed := seed, evtOut := e } =
        .next { t with hotq := hot, coldq := cold, smState := st, crcSeed := seed, evtOut := e }

/-! ### The queues and the arbiter -/

/-- R195: KIND before FULL; otherwise the event is appended and VALUE is the new count. The named queue and RESULT are
all it writes, in every SM_STATE. -/
def Obligations.PushAppendsTheEvent : Prop :=
  ∀ (q : QueueId) (hp : Bool) (kind : Nat) (handle len : Byte) (s : State),
    (kind ≥ 13 → exec (.qPush q hp kind handle len) s = .next { s with result := ⟨.kind, 0x20, 0⟩ }) ∧
    (kind < 13 → (s.queue q).content.length = 16 →
      exec (.qPush q hp kind handle len) s = .next { s with result := ⟨.full, 0x20, 0⟩ }) ∧
    (kind < 13 → (s.queue q).content.length < 16 →
      ∃ x : Queue, x.content = (s.queue q).content ++ [⟨BitVec.ofNat 4 kind, hp, handle, len⟩] ∧
        exec (.qPush q hp kind handle len) s =
          .next { s.setQueue q x with result := ⟨.ok, 0x20, BitVec.ofNat 16 ((s.queue q).content.length + 1)⟩ })

/-- R199, R200: an empty queue gives EMPTY and EVT_OUT 0; otherwise the oldest event goes to EVT_OUT and leaves the
queue, and VALUE is the remaining count, in every SM_STATE. -/
def Obligations.PopRemovesTheOldestEvent : Prop :=
  ∀ (q : QueueId) (s : State),
    ((s.queue q).content = [] →
      ∃ t, exec (.qPop q) s = .next t ∧ t = { s with evtOut := t.evtOut, result := ⟨.empty, 0x21, 0⟩ } ∧
        evtOutWord t.evtOut = 0) ∧
    (∀ (e : Event) (rest : List Event), (s.queue q).content = e :: rest →
      ∃ x : Queue, x.content = rest ∧
        exec (.qPop q) s =
          .next { s.setQueue q x with
            evtOut := ⟨true, q, e.hp, e.kind, e.handle, e.len⟩
            result := ⟨.ok, 0x21, BitVec.ofNat 16 rest.length⟩ })

/-- R202, R203: the oldest hot event if there is one; else in Idle the oldest cold event; else EMPTY and EVT_OUT 0. -/
def Obligations.ArbNextServesByPriority : Prop :=
  ∀ s : State,
    (∀ (e : Event) (rest : List Event), s.hotq.content = e :: rest →
      ∃ x : Queue, x.content = rest ∧
        exec .arbNext s =
          .next { s with
            hotq := x
            evtOut := ⟨true, .hot, e.hp, e.kind, e.handle, e.len⟩
            result := ⟨.ok, 0x22, BitVec.ofNat 16 rest.length⟩ }) ∧
    (∀ (e : Event) (rest : List Event), s.hotq.content = [] → s.smState = 0 → s.coldq.content = e :: rest →
      ∃ x : Queue, x.content = rest ∧
        exec .arbNext s =
          .next { s with
            coldq := x
            evtOut := ⟨true, .cold, e.hp, e.kind, e.handle, e.len⟩
            result := ⟨.ok, 0x22, BitVec.ofNat 16 rest.length⟩ }) ∧
    (s.hotq.content = [] → s.smState ≠ 0 ∨ s.coldq.content = [] →
      ∃ t, exec .arbNext s = .next t ∧ t = { s with evtOut := t.evtOut, result := ⟨.empty, 0x22, 0⟩ } ∧
        evtOutWord t.evtOut = 0)

/-- R43, R211: the queue commands write RESULT, EVT_OUT and at most one queue: no other register and no byte of
FRAME_BUF; Q_PUSH does not write EVT_OUT either. -/
def Obligations.QueueCommandsFrame : Prop :=
  ∀ (i : Instr) (s t : State),
    (∃ q hp kind handle len, i = .qPush q hp kind handle len) ∨ (∃ q, i = .qPop q) ∨ i = .arbNext →
    exec i s = .next t →
    t = { s with result := t.result, evtOut := t.evtOut, hotq := t.hotq, coldq := t.coldq } ∧
    (∀ a, t.buf.read a = s.buf.read a) ∧ (t.hotq = s.hotq ∨ t.coldq = s.coldq) ∧
    (∀ q hp kind handle len, i = .qPush q hp kind handle len → t.evtOut = s.evtOut)

/-- R211: the queue commands never read or write FRAME_BUF, the codec registers, CFG_ID, the KEY registers or
CRC_SEED, and complete. -/
def Obligations.QueueCommandsIgnoreTheCodec : Prop :=
  ∀ (i : Instr) (s : State) (m : Memory) (len : Byte) (h : MsgHdr) (a : MsgAddr) (c : CfgId) (k : Vector Word 4)
    (seed : Half),
    (∃ q hp kind handle len, i = .qPush q hp kind handle len) ∨ (∃ q, i = .qPop q) ∨ i = .arbNext →
    ∃ t, exec i s = .next t ∧ t.buf = s.buf ∧ t.frameLen = s.frameLen ∧ t.msgHdr = s.msgHdr ∧ t.msgAddr = s.msgAddr ∧
      t.cfgId = s.cfgId ∧ t.key = s.key ∧ t.crcSeed = s.crcSeed ∧
      exec i { s with buf := m, frameLen := len, msgHdr := h, msgAddr := a, cfgId := c, key := k, crcSeed := seed } =
        .next { t with buf := m, frameLen := len, msgHdr := h, msgAddr := a, cfgId := c, key := k, crcSeed := seed }

/-- R190: a push or pop of one queue never changes the other. -/
def Obligations.QueuesAreIndependent : Prop :=
  ∀ (q p : QueueId) (i : Instr) (s t : State), p ≠ q →
    (∃ hp kind handle len, i = .qPush q hp kind handle len) ∨ i = .qPop q → exec i s = .next t →
    t.queue p = s.queue p

/-- R207: from an empty queue, 16 pushes return OK with VALUE 1 to 16, the 17th returns FULL and changes nothing of the
queue, and 16 pops then return the first 16 events in push order. -/
def Obligations.SixteenEventsFitAndComeBackInOrder : Prop :=
  ∀ (q : QueueId) (s : State) (evs : List Event), (s.queue q).content = [] → evs.length = 17 →
    (∀ e ∈ evs, e.kind.toNat < 13) →
    (∀ k, 1 ≤ k → k ≤ 16 → ∃ t, runCommands ((evs.take k).map (pushOf q)) s = .next t ∧
      t.result = ⟨.ok, 0x20, BitVec.ofNat 16 k⟩ ∧ (t.queue q).content = evs.take k) ∧
    (∃ t, runCommands (evs.map (pushOf q)) s = .next t ∧ t.result = ⟨.full, 0x20, 0⟩ ∧
      (t.queue q).content = evs.take 16) ∧
    (∀ (k : Nat) (e : Event), k < 16 → evs[k]? = some e →
      ∃ t, runCommands (evs.map (pushOf q) ++ List.replicate (k + 1) (.qPop q)) s = .next t ∧
        t.result = ⟨.ok, 0x21, BitVec.ofNat 16 (15 - k)⟩ ∧
        t.evtOut = ⟨true, q, e.hp, e.kind, e.handle, e.len⟩)

/-- R205: an event in COLDQ stays there, in its place, through every step but an ARB_NEXT issued with STATE = IDLE and
HOTQ empty, a Q_POP of COLDQ, or a reset.
`pending` and `response` are the model's port (log entries 1, 2). -/
def Obligations.ColdEventsStayUntilIdle : Prop :=
  ∀ s t : State, step s = .next t →
    (∃ added, t.coldq.content = s.coldq.content ++ added) ∨
    (∃ rest, s.pending = .reset :: rest) ∨
    (∃ w rest, s.pending = .write 0x000 4 w :: rest ∧ decodeWord w = .ok (.qPop .cold)) ∨
    (∃ w rest, s.pending = .write 0x000 4 w :: rest ∧ decodeWord w = .ok .arbNext ∧ s.smState = 0 ∧
      s.hotq.content = [])

/-- R206: ARB_NEXT never returns a cold event while HOTQ is not empty, in any state. -/
def Obligations.HotEventsComeFirst : Prop :=
  ∀ s t : State, s.hotq.content ≠ [] → exec .arbNext s = .next t →
    t.result.code = .ok ∧ t.evtOut.valid = true ∧ t.evtOut.srcq = .hot ∧ t.coldq = s.coldq

/-- R210: STATUS.ELIGIBLE is 1 exactly when the ARB_NEXT that follows at once returns OK. -/
def Obligations.EligibleForetellsArbNext : Prop :=
  ∀ s : State, (readReg s .status).getLsbD 20 = true ↔ ∃ t, exec .arbNext s = .next t ∧ t.result.code = .ok

/-! ### Pseudo-instructions -/

/-- R98: `setkey` leaves the sixteen key bytes in KEY, first byte most significant, and changes nothing else.
`pending` and `response` are the model's port (log entries 1, 2). -/
def Obligations.SetKeyWritesTheKeyBytes : Prop :=
  ∀ (s : State) (k : Vector Byte 16), s.pending = expand (.setKey k) →
    ∃ t, Sys2Proof.core.run 4 s = .next t ∧ t = { s with key := t.key, pending := [], response := .done } ∧
      t.keyValue = k[0] ++ k[1] ++ k[2] ++ k[3] ++ k[4] ++ k[5] ++ k[6] ++ k[7] ++ k[8] ++ k[9] ++ k[10] ++ k[11] ++
        k[12] ++ k[13] ++ k[14] ++ k[15]

/-- R98: `wrbuf` writes its bytes to consecutive bytes of FRAME_BUF and changes nothing else.
`pending` and `response` are the model's port (log entries 1, 2). -/
def Obligations.WrBufWritesItsBytes : Prop :=
  ∀ (s : State) (i : Nat) (bytes : List Byte), i + bytes.length ≤ 256 → bytes ≠ [] →
    s.pending = expand (.wrBuf i bytes) →
    ∃ t, Sys2Proof.core.run bytes.length s = .next t ∧
      t = { s with buf := t.buf, pending := [], response := .done } ∧
      (∀ a, t.buf.read a = if i ≤ a ∧ a < i + bytes.length then bytes.getD (a - i) 0 else s.buf.read a)
end

