-- ==== Sys2Proof/Laws/Bus.lean ====
section
/-! SUPPORT. The port (20_memory.md R60 to R63): which register an offset names, and what a step does with the first
waiting event. -/

namespace Sys2Proof.Machine

open Sys2Proof

/-- A register is found at its own offset (R21). -/
theorem regAt_offset (r : Reg) : regAt r.offset = some r := by
  cases r with
  | key i => revert i; decide
  | _ => decide

/-- Registers stand exactly at the word-aligned offsets 0x000 to 0x034 (R62). -/
theorem regAt_isSome_iff (off : Nat) : (regAt off).isSome = true ↔ off % 4 = 0 ∧ off ≤ 0x034 := by
  constructor
  · intro h
    obtain ⟨r, hr⟩ := Option.isSome_iff_exists.mp h
    have hoff : r.offset = off := by simpa [regAt] using List.find?_some hr
    subst hoff
    cases r with
    | key i => revert i; decide
    | _ => decide
  · rintro ⟨h4, hle⟩
    have : ∀ k : Fin 14, (regAt (4 * k.val)).isSome = true := by decide
    obtain ⟨k, rfl⟩ : ∃ k, off = 4 * k := ⟨off / 4, by omega⟩
    exact this ⟨k, by omega⟩

/-- With nothing waiting the block does nothing. -/
theorem step_idle {s : State} (h : s.pending = []) : step s = .next s := by
  simp [step, portStep, idle, h]

/-- A step performs the first waiting event (R60). -/
theorem step_event {s : State} {e : PortEvent} {rest : List PortEvent} (h : s.pending = e :: rest) :
    step s = perform e { s with pending := rest } := by
  simp [step, portStep, h]

/-- A write to CMD at the port executes its word (R22). -/
theorem perform_cmdWrite (w : Word) (s : State) : perform (cmdWrite w) s = execWord w { s with response := .done } :=
  rfl

theorem offset_of_regAt {off : Nat} {r : Reg} (h : regAt off = some r) : off = r.offset := by
  have := List.find?_some h
  simp at this
  exact this.symm

theorem Reg.offset_lt (r : Reg) : r.offset < Params.windowSize := by
  cases r with
  | key i => revert i; decide
  | _ => decide

/-- A four-byte write at a register's offset is that register's rule. -/
theorem step_writeReg {s : State} {r : Reg} {w : Word} {rest : List PortEvent}
    (h : s.pending = .write r.offset 4 w :: rest) :
    step s = writeReg r w { s with pending := rest, response := .done } := by
  rw [step_event h]
  simp only [perform, busWrite, target, regAt_offset]
  rw [if_neg (by have := r.offset_lt; omega)]
  rfl

/-- Everything a step that answers a next state can have done: nothing, a reset, a read, a register's write, or a
byte's. -/
theorem step_cases {s t : State} (h : step s = .next t) :
    (s.pending = [] ∧ t = s) ∨
    (∃ rest, s.pending = .reset :: rest ∧ t = State.resetBlock { s with pending := rest }) ∨
    (∃ off n rest v, s.pending = .read off n :: rest ∧ t = { s with pending := rest, response := v }) ∨
    (∃ r w rest, s.pending = .write (Reg.offset r) 4 w :: rest ∧
      writeReg r w { s with pending := rest, response := .done } = .next t) ∨
    (∃ i w rest, i < 256 ∧ s.pending = .write (0x100 + i) 1 w :: rest ∧
      t = { s with pending := rest, response := .done, buf := s.buf.write i (w.extractLsb' 0 8) }) := by
  cases hp : s.pending with
  | nil => rw [step_idle hp] at h; cases h; exact .inl ⟨rfl, rfl⟩
  | cons e rest =>
    rw [step_event hp] at h
    right
    cases e with
    | reset => cases h; exact .inl ⟨_, rfl, rfl⟩
    | read off n =>
      simp only [perform, busRead] at h
      split_ifs at h
      split at h <;> cases h
      exact .inr (.inl ⟨_, _, _, _, rfl, rfl⟩)
    | write off n w =>
      simp only [perform, busWrite] at h
      split_ifs at h
      split at h
      · rename_i x hx
        unfold target at hx
        split_ifs at hx with h1 h2
        · cases hr : regAt off with
          | none => simp [hr] at hx
          | some r =>
            simp only [hr, Option.map_some, Option.some.injEq] at hx
            subst hx
            rw [offset_of_regAt hr, h1]
            exact .inr (.inr (.inl ⟨r, w, rest, rfl, h⟩))
        · simp only [Option.some.injEq] at hx
          subst hx
          cases h
          have hw : Params.windowSize = 512 := rfl
          refine .inr (.inr (.inr ⟨off - 256, w, rest, by omega, ?_, rfl⟩))
          rw [h2.1, show 256 + (off - 256) = off by omega]
      · cases h

end Sys2Proof.Machine
end

