-- ==== Sys2Proof/Laws/Memory.lean ====
section
/-! SUPPORT. FRAME_BUF: a read after a write, and that every operation keeps the canonical form. The read laws need no
canonical form, so they hold in states no run reaches. -/

namespace Sys2Proof.Machine

open Sys2Proof

theorem Memory.find_insert (i j : Nat) (v : Byte) (cells : List Host.Cell) :
    Memory.find j (Memory.insert i v cells) = if j = i then some v else Memory.find j cells := by
  induction cells with
  | nil => simp [insert, find, eq_comm]
  | cons c rest ih =>
    obtain ⟨a, u⟩ := c
    by_cases hj : j = i
    · subst hj
      rw [if_pos rfl] at ih ⊢
      simp only [insert]
      split_ifs with h1 h2
      · simp [find]
      · simp [find]
      · rw [find, if_neg h2, ih]
    · rw [if_neg hj] at ih ⊢
      have hij : i ≠ j := fun h => hj h.symm
      simp only [insert]
      split_ifs with h1 h2
      · rw [find, if_neg hij]
      · subst h2; simp [find, hij]
      · simp only [find, ih]

@[simp] theorem Memory.write_epoch (m : Memory) (i : Nat) (v : Byte) : (m.write i v).epoch = m.epoch := rfl

/-- One byte after one write. -/
theorem Memory.read_write (m : Memory) (i j : Nat) (v : Byte) :
    (m.write i v).read j = if j = i then v else m.read j := by
  simp only [read, write, find_insert, unwritten]
  split_ifs <;> simp

@[simp] theorem Memory.read_write_same (m : Memory) (i : Nat) (v : Byte) : (m.write i v).read i = v := by
  simp [read_write]

theorem Memory.read_write_other (m : Memory) {i j : Nat} (v : Byte) (h : j ≠ i) :
    (m.write i v).read j = m.read j := by
  simp [read_write, h]

@[simp] theorem Memory.writeBytes_epoch (bytes : List Byte) (m : Memory) (off : Nat) :
    (m.writeBytes off bytes).epoch = m.epoch := by
  induction bytes generalizing m off with
  | nil => rfl
  | cons v rest ih => simp [writeBytes, ih]

/-- One byte after a run of writes: the byte written there, or the one before. -/
theorem Memory.read_writeBytes (bytes : List Byte) (m : Memory) (off j : Nat) :
    (m.writeBytes off bytes).read j =
      if off ≤ j ∧ j < off + bytes.length then bytes.getD (j - off) 0 else m.read j := by
  induction bytes generalizing m off with
  | nil => simp [writeBytes]
  | cons v rest ih =>
    rw [writeBytes, ih, read_write]
    by_cases hj : j = off
    · subst hj; simp
    · by_cases hin : off + 1 ≤ j ∧ j < off + 1 + rest.length
      · have h1 : off ≤ j ∧ j < off + (v :: rest).length := by simp only [List.length_cons]; omega
        have h2 : j - off = (j - (off + 1)) + 1 := by omega
        rw [if_pos hin, if_pos h1, h2, List.getD_cons_succ]
      · have h1 : ¬ (off ≤ j ∧ j < off + (v :: rest).length) := by simp only [List.length_cons]; omega
        rw [if_neg hin, if_neg h1, if_neg hj]

@[simp] theorem Memory.bytes_length (m : Memory) (off len : Nat) : (m.bytes off len).length = len := by
  simp [bytes]

/-- Two buffers that read alike over a range give the same bytes. -/
theorem Memory.bytes_congr {m m' : Memory} {off len : Nat}
    (h : ∀ i, off ≤ i → i < off + len → m.read i = m'.read i) : m.bytes off len = m'.bytes off len := by
  simp only [bytes]
  refine List.map_congr_left fun k hk => h _ (by omega) ?_
  have := List.mem_range.mp hk
  omega

/-! ### The canonical form -/

theorem Memory.rising_mono {lo lo' : Nat} {cells : List Host.Cell} (h : lo' ≤ lo)
    (hr : Memory.rising lo cells = true) : Memory.rising lo' cells = true := by
  cases cells with
  | nil => rfl
  | cons c rest =>
    simp only [rising, Bool.and_eq_true, decide_eq_true_eq] at hr ⊢
    exact ⟨⟨le_trans h hr.1.1, hr.1.2⟩, hr.2⟩

theorem Memory.rising_insert {lo i : Nat} (v : Byte) {cells : List Host.Cell} (hlo : lo ≤ i)
    (hi : i < Params.bufSize) (hr : Memory.rising lo cells = true) :
    Memory.rising lo (Memory.insert i v cells) = true := by
  induction cells generalizing lo with
  | nil => simp [insert, rising, hlo, hi]
  | cons c rest ih =>
    obtain ⟨a, u⟩ := c
    simp only [rising, Bool.and_eq_true, decide_eq_true_eq] at hr
    simp only [insert]
    split_ifs with h1 h2
    · simp only [rising, Bool.and_eq_true, decide_eq_true_eq]; exact ⟨⟨hlo, hi⟩, ⟨by omega, hr.1.2⟩, hr.2⟩
    · subst h2; simp only [rising, Bool.and_eq_true, decide_eq_true_eq]; exact hr
    · simp only [rising, Bool.and_eq_true, decide_eq_true_eq]; exact ⟨hr.1, ih (by omega) hr.2⟩

/-- Every write inside the 256 bytes keeps the canonical form. -/
theorem Memory.wf_write {m : Memory} {i : Nat} (v : Byte) (hi : i < Params.bufSize) (h : m.wf = true) :
    (m.write i v).wf = true :=
  Memory.rising_insert v (Nat.zero_le i) hi h

theorem Memory.wf_writeBytes (bytes : List Byte) {m : Memory} {off : Nat}
    (hi : off + bytes.length ≤ Params.bufSize) (h : m.wf = true) : (m.writeBytes off bytes).wf = true := by
  induction bytes generalizing m off with
  | nil => exact h
  | cons v rest ih =>
    simp only [List.length_cons] at hi
    exact ih (by omega) (Memory.wf_write v (by omega) h)

/-- Reset memory lists nothing, which is canonical. -/
theorem State.reset_buf_wf : State.reset.buf.wf = true := rfl

end Sys2Proof.Machine
end

