-- ==== Sys2Proof/Laws/Codec.lean ====
section
/-! SUPPORT. The codec (41_frame_codec.md): what `crypt` does to each byte, that it keeps the canonical form, and everything
ENCODE and DECODE can do. -/

namespace Sys2Proof.Machine

open Sys2Proof

/-- The loop of `crypt` after `k` rounds. -/
def cryptRounds (ks : Nat → Byte) (k : Nat) (m : Memory) : Memory :=
  (List.range k).foldl (fun b j => b.write (6 + j) (b.read (6 + j) ^^^ ks j)) m

theorem crypt_eq_rounds (ks : Nat → Byte) (size : Nat) (m : Memory) :
    crypt ks size m = cryptRounds ks (size - 6) m := rfl

theorem cryptRounds_succ (ks : Nat → Byte) (k : Nat) (m : Memory) :
    cryptRounds ks (k + 1) m =
      (cryptRounds ks k m).write (6 + k) ((cryptRounds ks k m).read (6 + k) ^^^ ks k) := by
  simp [cryptRounds, List.range_succ]

theorem cryptRounds_read (ks : Nat → Byte) (k : Nat) (m : Memory) (i : Nat) :
    (cryptRounds ks k m).read i = if 6 ≤ i ∧ i < 6 + k then m.read i ^^^ ks (i - 6) else m.read i := by
  induction k with
  | zero => rw [if_neg (by omega)]; rfl
  | succ k ih =>
    rw [cryptRounds_succ, Memory.read_write]
    by_cases hi : i = 6 + k
    · subst hi
      have : (cryptRounds ks k m).read (6 + k) = m.read (6 + k) := by
        have hne : ∀ n, n ≤ k → (cryptRounds ks n m).read (6 + k) = m.read (6 + k) := by
          intro n
          induction n with
          | zero => intro _; rfl
          | succ n ihn =>
            intro hn
            rw [cryptRounds_succ, Memory.read_write_other _ _ (by omega), ihn (by omega)]
        exact hne k le_rfl
      rw [if_pos rfl, this, if_pos (by omega)]
      congr 2
      omega
    · rw [if_neg hi, ih]
      by_cases h : 6 ≤ i ∧ i < 6 + k
      · rw [if_pos h, if_pos (by omega)]
      · rw [if_neg h, if_neg (by omega)]

/-- `crypt` XORs bytes 6 to L-1 with their keystream bytes and writes no other byte (R127). -/
theorem crypt_read (ks : Nat → Byte) (size : Nat) (m : Memory) (i : Nat) :
    (crypt ks size m).read i = if 6 ≤ i ∧ i < size then m.read i ^^^ ks (i - 6) else m.read i := by
  rw [crypt_eq_rounds, cryptRounds_read]
  by_cases h : 6 ≤ i ∧ i < size
  · rw [if_pos h, if_pos (by omega)]
  · rw [if_neg h, if_neg (by omega)]

theorem cryptRounds_wf (ks : Nat → Byte) (k : Nat) {m : Memory} (hk : 6 + k ≤ Params.bufSize) (h : m.wf = true) :
    (cryptRounds ks k m).wf = true := by
  induction k with
  | zero => exact h
  | succ k ih => rw [cryptRounds_succ]; exact Memory.wf_write _ (by omega) (ih (by omega))

/-- `crypt` of a frame of at most 256 bytes keeps the canonical form. -/
theorem crypt_wf (ks : Nat → Byte) {size : Nat} {m : Memory} (hs : size ≤ Params.bufSize) (h : m.wf = true) :
    (crypt ks size m).wf = true := by
  rw [crypt_eq_rounds]
  refine cryptRounds_wf ks _ ?_ h
  have : Params.bufSize = 256 := rfl
  omega

@[simp] theorem cryptRounds_epoch (ks : Nat → Byte) (k : Nat) (m : Memory) : (cryptRounds ks k m).epoch = m.epoch := by
  induction k with
  | zero => rfl
  | succ k ih => rw [cryptRounds_succ, Memory.write_epoch, ih]

@[simp] theorem crypt_epoch (ks : Nat → Byte) (size : Nat) (m : Memory) : (crypt ks size m).epoch = m.epoch := by
  rw [crypt_eq_rounds, cryptRounds_epoch]

/-- The type codes a frame may have (R104). -/
theorem frameTypeOf_eq (x : BitVec 4) :
    frameTypeOf x.toNat = if x = 0 then some .standard else if x = 1 then some .ack else none := by
  revert x; decide

/-- The destinations ENCODE refuses (R105, R131). -/
theorem badDest_eq_true_iff (d : Byte) : badDest d = true ↔ d = 0x00 ∨ (0xFB ≤ d.toNat ∧ d.toNat ≤ 0xFE) := by
  simp [badDest]

/-- The checks of ENCODE in one piece (R131). -/
theorem encodeChecks_eq (s : State) : encodeChecks s =
    if s.msgHdr.type = 0 then
      if s.msgHdr.len.toNat > 244 then .error .length
      else if badDest s.msgAddr.dest = true then .error .addr
      else .ok (.standard, s.msgHdr.len.toNat)
    else if s.msgHdr.type = 1 then
      if badDest s.msgAddr.dest = true then .error .addr else .ok (.ack, 0)
    else .error .type := by
  unfold encodeChecks
  rw [frameTypeOf_eq]
  by_cases h0 : s.msgHdr.type = 0
  · rw [if_pos h0, if_pos h0]; rfl
  · rw [if_neg h0, if_neg h0]
    by_cases h1 : s.msgHdr.type = 1
    · rw [if_pos h1, if_pos h1]; rfl
    · rw [if_neg h1, if_neg h1]

/-- The checks of DECODE in one piece (R137, R138). -/
theorem decodeChecks_eq (s : State) : decodeChecks s =
    if s.frameLen.toNat = 0 then .error .length
    else if (s.buf.read 0).extractLsb' 4 4 ≠ 1#4 then .error .version
    else if (s.buf.read 0).extractLsb' 0 4 = 0#4 then
      if (s.buf.read 1).toNat > 244 ∨ s.frameLen.toNat ≠ 11 + (s.buf.read 1).toNat then .error .length
      else .ok (.standard, (s.buf.read 1).toNat)
    else if (s.buf.read 0).extractLsb' 0 4 = 1#4 then
      if s.frameLen.toNat ≠ 12 then .error .length else .ok (.ack, 0)
    else .error .type := by
  unfold decodeChecks
  simp only [frameTypeOf_eq]
  by_cases hl : s.frameLen.toNat = 0
  · rw [if_pos hl, if_pos hl]
  rw [if_neg hl, if_neg hl]
  by_cases hv : verOf Params.nibbleOrder (s.buf.read 0) ≠ Params.version
  · rw [if_pos hv]; exact (if_pos hv).symm
  rw [if_neg hv]
  refine Eq.trans ?_ (if_neg hv).symm
  by_cases h0 : typeOf Params.nibbleOrder (s.buf.read 0) = 0
  · rw [if_pos h0]; exact (if_pos h0).symm
  rw [if_neg h0]
  refine Eq.trans ?_ (if_neg h0).symm
  by_cases h1 : typeOf Params.nibbleOrder (s.buf.read 0) = 1
  · rw [if_pos h1]
    refine Eq.trans ?_ (if_pos h1).symm
    have hn : ¬ payloadLen .ack (s.buf.read 1) > Params.maxPayload := Nat.not_lt_zero _
    simp only
    by_cases h12 : s.frameLen.toNat ≠ 12
    · rw [if_pos (.inr h12), if_pos h12]
    · exact (if_neg (not_or.mpr ⟨hn, h12⟩)).trans (if_neg h12).symm
  · rw [if_neg h1]; exact (if_neg h1).symm

/-- Everything ENCODE can do: a refusal that writes RESULT alone, or the sealed frame (R131). -/
theorem encodeWith_cases (c : Cipher) (nonce : Half) (s : State) :
    (∃ code, code ≠ .ok ∧ encodeChecks s = .error code ∧ encodeWith c nonce s = s.report 0x11 code 0) ∨
    (∃ t n, encodeChecks s = .ok (t, n) ∧
      encodeWith c nonce s =
        { s with
          buf := crypt (frameKeystream c s nonce) (frameBytes t n) (buildPlain t n nonce s.msgAddr s.buf)
          frameLen := BitVec.ofNat 8 (frameBytes t n)
          msgHdr := { s.msgHdr with nonce := nonce }
          draws := s.draws + 1
          result := ⟨.ok, 0x11, BitVec.ofNat 16 (frameBytes t n)⟩ }) := by
  cases h : encodeChecks s with
  | error code =>
    refine .inl ⟨code, ?_, rfl, by rw [encodeWith, h]⟩
    rw [encodeChecks_eq] at h
    split_ifs at h <;> cases h <;> decide
  | ok p => exact .inr ⟨p.1, p.2, rfl, by rw [encodeWith, h]; rfl⟩

/-- Everything DECODE can do: a header refused, RESULT alone written; or the frame decrypted in place, and then CRC,
NOT_FOR_ME, or the message registers (R137, R142, R145). -/
theorem decodeWith_cases (c : Cipher) (s : State) :
    (∃ code, (code = .length ∨ code = .version ∨ code = .type) ∧ decodeChecks s = .error code ∧
      decodeWith c s = s.report 0x12 code 0) ∨
    (∃ t n p, decodeChecks s = .ok (t, n) ∧
      p = crypt (frameKeystream c s (frameNonce s.buf)) s.frameLen.toNat s.buf ∧
      ((frameCrc p s.frameLen.toNat ≠ crcField p s.frameLen.toNat ∧
          decodeWith c s = (s.setBuf p).report 0x12 .crc 0) ∨
        (frameCrc p s.frameLen.toNat = crcField p s.frameLen.toNat ∧ accepts t s.cfgId.myId (p.read 6) = false ∧
          decodeWith c s = (s.setBuf p).report 0x12 .notForMe 0) ∨
        (frameCrc p s.frameLen.toNat = crcField p s.frameLen.toNat ∧ accepts t s.cfgId.myId (p.read 6) = true ∧
          decodeWith c s =
            { s with
              buf := p
              msgHdr := ⟨t.code, BitVec.ofNat 8 n, frameNonce s.buf⟩
              msgAddr := ⟨p.read 6, p.read 7, p.read 8, decodedExp t p⟩
              result := ⟨.ok, 0x12, BitVec.ofNat 16 s.frameLen.toNat⟩ }))) := by
  cases h : decodeChecks s with
  | error code =>
    refine .inl ⟨code, ?_, rfl, by rw [decodeWith, h]⟩
    rw [decodeChecks_eq] at h
    split_ifs at h <;> cases h <;> decide
  | ok q =>
    refine .inr ⟨q.1, q.2, _, rfl, rfl, ?_⟩
    simp only [decodeWith, h]
    generalize crypt (frameKeystream c s (frameNonce s.buf)) s.frameLen.toNat s.buf = p
    by_cases h1 : frameCrc p s.frameLen.toNat = crcField p s.frameLen.toNat
    · right
      rw [if_neg (not_not_intro h1)]
      cases h2 : accepts q.1 s.cfgId.myId (p.read 6)
      · exact .inl ⟨h1, rfl, rfl⟩
      · exact .inr ⟨h1, rfl, rfl⟩
    · exact .inl ⟨h1, if_pos h1⟩
/-- What the checks of ENCODE let through: a payload of at most 244 bytes, none for an Ack, and a destination that is
not refused (R131). -/
theorem encodeChecks_ok {s : State} {t : FrameType} {n : Nat} (h : encodeChecks s = .ok (t, n)) :
    frameTypeOf s.msgHdr.type.toNat = some t ∧ n = payloadLen t s.msgHdr.len ∧ n ≤ Params.maxPayload ∧
      badDest s.msgAddr.dest = false := by
  unfold encodeChecks at h
  split at h
  · cases h
  · split_ifs at h with h1 h2
    cases h
    exact ⟨‹_›, rfl, by omega, by simpa using h2⟩

/-- What the checks of DECODE let through: the version, the type, and exactly the length the header gives (R137). -/
theorem decodeChecks_ok {s : State} {t : FrameType} {n : Nat} (h : decodeChecks s = .ok (t, n)) :
    s.frameLen.toNat ≠ 0 ∧ verOf Params.nibbleOrder (s.buf.read 0) = Params.version ∧
      frameTypeOf (typeOf Params.nibbleOrder (s.buf.read 0)).toNat = some t ∧
      n = payloadLen t (s.buf.read 1) ∧ n ≤ Params.maxPayload ∧ s.frameLen.toNat = frameBytes t n := by
  unfold decodeChecks at h
  simp only at h
  split_ifs at h with h1 h2
  split at h
  · cases h
  · split_ifs at h with h3
    cases h
    push Not at h3
    exact ⟨h1, by simpa using h2, ‹_›, rfl, h3.1, h3.2⟩

/-- A frame of an allowed payload is 11 to 255 bytes long (R120, R134). -/
theorem frameBytes_bounds {t : FrameType} {n : Nat} (hn : n ≤ Params.maxPayload) :
    11 ≤ frameBytes t n ∧ frameBytes t n ≤ 255 := by
  have : Params.maxPayload = 244 := rfl
  cases t <;> simp only [frameBytes] <;> omega

/-- The plaintext frame keeps the canonical form. -/
theorem buildPlain_wf {t : FrameType} {n : Nat} (nonce : Half) (a : MsgAddr) {m : Memory}
    (hn : n ≤ Params.maxPayload) (h : m.wf = true) : (buildPlain t n nonce a m).wf = true := by
  have hb := frameBytes_bounds (t := t) hn
  have hs : Params.bufSize = 256 := rfl
  unfold buildPlain
  refine Memory.wf_writeBytes _ (by simp only [List.length_cons, List.length_nil]; omega) ?_
  refine Memory.wf_writeBytes _ ?_ h
  cases t <;> simp [frameHead, hs]

end Sys2Proof.Machine
end

