-- ==== Sys2Proof/Laws/Crc.lean ====
section
/-! SUPPORT. The CRC engine (42_crc_engine.md R172): one shift, and that the bytes are folded left to right. -/

namespace Sys2Proof.Machine

open Sys2Proof

/-- One shift of the engine as R172 writes it: the polynomial is added when bit 15 and the data bit differ. -/
theorem crcShift_eq (poly c : Half) (bit : Bool) :
    crcShift poly c bit = if c.getLsbD 15 = bit then c <<< 1 else (c <<< 1) ^^^ poly := by
  unfold crcShift
  cases c.getLsbD 15 <;> cases bit <;> rfl

/-- The register after two runs of bytes, without the final inversion. -/
theorem crc16_append (x y : List Byte) (poly seed : Half) :
    crc16 (x ++ y) poly seed false = crc16 y poly (crc16 x poly seed false) false := by
  simp [crc16, List.foldl_append]

/-- The final inversion, apart from the fold. -/
theorem crc16_inverted (x : List Byte) (poly seed : Half) : crc16 x poly seed true = ~~~crc16 x poly seed false := rfl

/-- The CRC of no bytes is the seed, inverted for IBM (R174). -/
theorem crcOf_nil (ps : PolySel) (seed : Half) :
    crcOf ps [] seed = match ps with
      | .ibm => ~~~seed
      | .alt => seed := by
  cases ps <;> rfl

end Sys2Proof.Machine
end

