-- ==== Sys2Proof/Laws/Decode.lean ====
section
/-! SUPPORT. The decoder over the opcode map (30_encoding.md R94): a word decodes by the row it selects. -/

namespace Sys2Proof

/-- A word whose low byte a mask covers has the low byte of the pattern it matches. -/
theorem opByte_of_mask {w m p : Word} (hm : m.extractLsb' 0 8 = 0xFF#8) (h : w &&& m = p) :
    opByte w = p.extractLsb' 0 8 := by
  subst h
  apply BitVec.eq_of_getLsbD_eq
  intro i hi
  have hmi : m.getLsbD i = true := by
    have := congrArg (fun b => b.getLsbD i) hm
    simp only [BitVec.getLsbD_extractLsb'] at this
    interval_cases i <;> simpa using this
  simp [opByte, hi, hmi]

/-- A word has the opcode of a row it selects. -/
theorem opByte_of_selects {w : Word} {r : OpRow} (hr : r ∈ opRows) (h : r.selects w = true) : opByte w = r.opcode := by
  simp only [OpRow.selects, beq_iff_eq] at h
  refine opByte_of_mask ?_ h
  revert r
  simp [opRows]

/-- Two rows with one opcode are one row. -/
theorem opRows_opcode_inj {r r' : OpRow} (hr : r ∈ opRows) (hr' : r' ∈ opRows) (h : r.opcode = r'.opcode) : r = r' := by
  simp only [opRows, List.mem_cons, List.not_mem_nil, or_false] at hr hr'
  rcases hr with rfl | rfl | rfl | rfl | rfl | rfl | rfl <;> rcases hr' with rfl | rfl | rfl | rfl | rfl | rfl | rfl <;>
    first | rfl | (exfalso; revert h; simp [OpRow.opcode])

/-- The decoder reads the row a word selects. -/
theorem decodeWord_of_selects {w : Word} {r : OpRow} (hr : r ∈ opRows) (h : r.selects w = true) :
    decodeWord w = .ok (r.read w) := by
  have : opRows.find? (fun r => r.selects w) = some r := by
    cases hf : opRows.find? (fun r => r.selects w) with
    | none =>
      simp only [List.find?_eq_none] at hf
      exact absurd h (hf r hr)
    | some r' =>
      have hs : r'.selects w = true := by simpa using List.find?_some hf
      have hm := List.mem_of_find?_eq_some hf
      rw [opRows_opcode_inj hm hr ((opByte_of_selects hm hs).symm.trans (opByte_of_selects hr h))]
  rw [decodeWord, this]

/-- Everything the decoder can do. -/
theorem decodeWord_cases (w : Word) :
    (∃ r ∈ opRows, r.selects w = true ∧ decodeWord w = .ok (r.read w)) ∨
    ((∀ r ∈ opRows, r.selects w = false) ∧ ∃ e, decodeWord w = .error e) := by
  cases hf : opRows.find? (fun r => r.selects w) with
  | none =>
    refine .inr ⟨fun r hr => ?_, ?_⟩
    · simp only [List.find?_eq_none] at hf
      simpa using hf r hr
    · rw [decodeWord, hf]
      simp only
      split_ifs
      · exact ⟨_, rfl⟩
      · exact ⟨_, rfl⟩
  | some r =>
    have hs : r.selects w = true := by simpa using List.find?_some hf
    exact .inl ⟨r, List.mem_of_find?_eq_some hf, hs, decodeWord_of_selects (List.mem_of_find?_eq_some hf) hs⟩

end Sys2Proof
end

