-- ==== Sys2Proof/Laws/Queue.lean ====
section
/-! SUPPORT. The ring of a queue against its content (10_state.md R33; 43_event_queues.md R191): a push appends at the
end, a pop removes the head. -/

namespace Sys2Proof.Machine

open Sys2Proof

@[simp] theorem Queue.content_length (q : Queue) : q.content.length = q.count.val := by simp [content]

theorem Queue.content_length_le (q : Queue) : q.content.length ≤ 16 := by
  rw [content_length]; omega

theorem Queue.content_eq_nil_iff (q : Queue) : q.content = [] ↔ q.count.val = 0 := by
  rw [← List.length_eq_zero_iff, content_length]

/-- A push of a queue that is not full appends the event; a full queue gives none (R191, R192). -/
theorem Queue.push_spec (q : Queue) (e : Event) :
    (q.content.length = 16 ∧ q.push e = none) ∨
    (q.content.length < 16 ∧ ∃ x, q.push e = some x ∧ x.content = q.content ++ [e]) := by
  rw [content_length]
  by_cases h : q.count.val = 16
  · exact .inl ⟨h, by simp [push, h]⟩
  · have hc : q.count.val < 16 := by omega
    refine .inr ⟨hc, _, by rw [push, dif_neg h], ?_⟩
    simp only [content, List.range_succ, List.map_append, List.map_cons, List.map_nil]
    congr 1
    · refine List.map_congr_left fun k hk => ?_
      have hk := List.mem_range.mp hk
      simp only [slot, Vector.getElem_set]
      rw [if_neg]; omega
    · simp [slot]

/-- A pop of a queue that is not empty returns the oldest event and leaves the rest; an empty queue gives none (R191). -/
theorem Queue.pop_spec (q : Queue) :
    (q.content = [] ∧ q.pop = none) ∨
    (∃ e x, q.pop = some (e, x) ∧ q.content = e :: x.content) := by
  by_cases h : q.count.val = 0
  · exact .inl ⟨(content_eq_nil_iff q).mpr h, by simp [pop, h]⟩
  · refine .inr ⟨_, _, by rw [pop, if_neg h], ?_⟩
    obtain ⟨n, hn⟩ : ∃ n, q.count.val = n + 1 := ⟨q.count.val - 1, by omega⟩
    simp only [content, hn, List.range_succ_eq_map, List.map_cons, List.map_map, Nat.add_sub_cancel]
    congr 1
    refine List.map_congr_left fun k _ => ?_
    simp only [Function.comp, slot]
    congr 1
    have := q.head.isLt
    omega

/-- A pop succeeds exactly when the queue is not empty. -/
theorem Queue.pop_eq_none_iff (q : Queue) : q.pop = none ↔ q.content = [] := by
  rcases q.pop_spec with ⟨h, hp⟩ | ⟨e, x, hp, hc⟩
  · simp [h, hp]
  · simp [hp, hc]

end Sys2Proof.Machine
end

