-- ==== Sys2Proof/Laws/State.lean ====
section
/-! SUPPORT. What each shared update of the state does to each field, so that no proof unfolds a record update. -/

namespace Sys2Proof.Machine

open Sys2Proof


/-! ### setResult -/

@[simp] theorem State.setResult_result (s : State) (r : Result) : (s.setResult r).result = r := rfl
@[simp] theorem State.setResult_smState (s : State) (r : Result) : (s.setResult r).smState = s.smState := rfl
@[simp] theorem State.setResult_cfgId (s : State) (r : Result) : (s.setResult r).cfgId = s.cfgId := rfl
@[simp] theorem State.setResult_key (s : State) (r : Result) : (s.setResult r).key = s.key := rfl
@[simp] theorem State.setResult_crcSeed (s : State) (r : Result) : (s.setResult r).crcSeed = s.crcSeed := rfl
@[simp] theorem State.setResult_frameLen (s : State) (r : Result) : (s.setResult r).frameLen = s.frameLen := rfl
@[simp] theorem State.setResult_msgHdr (s : State) (r : Result) : (s.setResult r).msgHdr = s.msgHdr := rfl
@[simp] theorem State.setResult_msgAddr (s : State) (r : Result) : (s.setResult r).msgAddr = s.msgAddr := rfl
@[simp] theorem State.setResult_evtOut (s : State) (r : Result) : (s.setResult r).evtOut = s.evtOut := rfl
@[simp] theorem State.setResult_hotq (s : State) (r : Result) : (s.setResult r).hotq = s.hotq := rfl
@[simp] theorem State.setResult_coldq (s : State) (r : Result) : (s.setResult r).coldq = s.coldq := rfl
@[simp] theorem State.setResult_buf (s : State) (r : Result) : (s.setResult r).buf = s.buf := rfl
@[simp] theorem State.setResult_pending (s : State) (r : Result) : (s.setResult r).pending = s.pending := rfl
@[simp] theorem State.setResult_response (s : State) (r : Result) : (s.setResult r).response = s.response := rfl
@[simp] theorem State.setResult_draws (s : State) (r : Result) : (s.setResult r).draws = s.draws := rfl

/-! ### setEvtOut -/

@[simp] theorem State.setEvtOut_result (s : State) (e : EvtOut) : (s.setEvtOut e).result = s.result := rfl
@[simp] theorem State.setEvtOut_smState (s : State) (e : EvtOut) : (s.setEvtOut e).smState = s.smState := rfl
@[simp] theorem State.setEvtOut_cfgId (s : State) (e : EvtOut) : (s.setEvtOut e).cfgId = s.cfgId := rfl
@[simp] theorem State.setEvtOut_key (s : State) (e : EvtOut) : (s.setEvtOut e).key = s.key := rfl
@[simp] theorem State.setEvtOut_crcSeed (s : State) (e : EvtOut) : (s.setEvtOut e).crcSeed = s.crcSeed := rfl
@[simp] theorem State.setEvtOut_frameLen (s : State) (e : EvtOut) : (s.setEvtOut e).frameLen = s.frameLen := rfl
@[simp] theorem State.setEvtOut_msgHdr (s : State) (e : EvtOut) : (s.setEvtOut e).msgHdr = s.msgHdr := rfl
@[simp] theorem State.setEvtOut_msgAddr (s : State) (e : EvtOut) : (s.setEvtOut e).msgAddr = s.msgAddr := rfl
@[simp] theorem State.setEvtOut_evtOut (s : State) (e : EvtOut) : (s.setEvtOut e).evtOut = e := rfl
@[simp] theorem State.setEvtOut_hotq (s : State) (e : EvtOut) : (s.setEvtOut e).hotq = s.hotq := rfl
@[simp] theorem State.setEvtOut_coldq (s : State) (e : EvtOut) : (s.setEvtOut e).coldq = s.coldq := rfl
@[simp] theorem State.setEvtOut_buf (s : State) (e : EvtOut) : (s.setEvtOut e).buf = s.buf := rfl
@[simp] theorem State.setEvtOut_pending (s : State) (e : EvtOut) : (s.setEvtOut e).pending = s.pending := rfl
@[simp] theorem State.setEvtOut_response (s : State) (e : EvtOut) : (s.setEvtOut e).response = s.response := rfl
@[simp] theorem State.setEvtOut_draws (s : State) (e : EvtOut) : (s.setEvtOut e).draws = s.draws := rfl

/-! ### setBuf -/

@[simp] theorem State.setBuf_result (s : State) (m : Memory) : (s.setBuf m).result = s.result := rfl
@[simp] theorem State.setBuf_smState (s : State) (m : Memory) : (s.setBuf m).smState = s.smState := rfl
@[simp] theorem State.setBuf_cfgId (s : State) (m : Memory) : (s.setBuf m).cfgId = s.cfgId := rfl
@[simp] theorem State.setBuf_key (s : State) (m : Memory) : (s.setBuf m).key = s.key := rfl
@[simp] theorem State.setBuf_crcSeed (s : State) (m : Memory) : (s.setBuf m).crcSeed = s.crcSeed := rfl
@[simp] theorem State.setBuf_frameLen (s : State) (m : Memory) : (s.setBuf m).frameLen = s.frameLen := rfl
@[simp] theorem State.setBuf_msgHdr (s : State) (m : Memory) : (s.setBuf m).msgHdr = s.msgHdr := rfl
@[simp] theorem State.setBuf_msgAddr (s : State) (m : Memory) : (s.setBuf m).msgAddr = s.msgAddr := rfl
@[simp] theorem State.setBuf_evtOut (s : State) (m : Memory) : (s.setBuf m).evtOut = s.evtOut := rfl
@[simp] theorem State.setBuf_hotq (s : State) (m : Memory) : (s.setBuf m).hotq = s.hotq := rfl
@[simp] theorem State.setBuf_coldq (s : State) (m : Memory) : (s.setBuf m).coldq = s.coldq := rfl
@[simp] theorem State.setBuf_buf (s : State) (m : Memory) : (s.setBuf m).buf = m := rfl
@[simp] theorem State.setBuf_pending (s : State) (m : Memory) : (s.setBuf m).pending = s.pending := rfl
@[simp] theorem State.setBuf_response (s : State) (m : Memory) : (s.setBuf m).response = s.response := rfl
@[simp] theorem State.setBuf_draws (s : State) (m : Memory) : (s.setBuf m).draws = s.draws := rfl

/-! ### report -/

@[simp] theorem State.report_result (s : State) (op : Byte) (c : ResultCode) (v : Half) : (s.report op c v).result = ⟨c, op, if c = .ok then v else 0⟩ := rfl
@[simp] theorem State.report_smState (s : State) (op : Byte) (c : ResultCode) (v : Half) : (s.report op c v).smState = s.smState := rfl
@[simp] theorem State.report_cfgId (s : State) (op : Byte) (c : ResultCode) (v : Half) : (s.report op c v).cfgId = s.cfgId := rfl
@[simp] theorem State.report_key (s : State) (op : Byte) (c : ResultCode) (v : Half) : (s.report op c v).key = s.key := rfl
@[simp] theorem State.report_crcSeed (s : State) (op : Byte) (c : ResultCode) (v : Half) : (s.report op c v).crcSeed = s.crcSeed := rfl
@[simp] theorem State.report_frameLen (s : State) (op : Byte) (c : ResultCode) (v : Half) : (s.report op c v).frameLen = s.frameLen := rfl
@[simp] theorem State.report_msgHdr (s : State) (op : Byte) (c : ResultCode) (v : Half) : (s.report op c v).msgHdr = s.msgHdr := rfl
@[simp] theorem State.report_msgAddr (s : State) (op : Byte) (c : ResultCode) (v : Half) : (s.report op c v).msgAddr = s.msgAddr := rfl
@[simp] theorem State.report_evtOut (s : State) (op : Byte) (c : ResultCode) (v : Half) : (s.report op c v).evtOut = s.evtOut := rfl
@[simp] theorem State.report_hotq (s : State) (op : Byte) (c : ResultCode) (v : Half) : (s.report op c v).hotq = s.hotq := rfl
@[simp] theorem State.report_coldq (s : State) (op : Byte) (c : ResultCode) (v : Half) : (s.report op c v).coldq = s.coldq := rfl
@[simp] theorem State.report_buf (s : State) (op : Byte) (c : ResultCode) (v : Half) : (s.report op c v).buf = s.buf := rfl
@[simp] theorem State.report_pending (s : State) (op : Byte) (c : ResultCode) (v : Half) : (s.report op c v).pending = s.pending := rfl
@[simp] theorem State.report_response (s : State) (op : Byte) (c : ResultCode) (v : Half) : (s.report op c v).response = s.response := rfl
@[simp] theorem State.report_draws (s : State) (op : Byte) (c : ResultCode) (v : Half) : (s.report op c v).draws = s.draws := rfl

/-! ### setQueue -/

@[simp] theorem State.setQueue_result (s : State) (q : QueueId) (x : Queue) : (s.setQueue q x).result = s.result := by
  cases q <;> rfl
@[simp] theorem State.setQueue_smState (s : State) (q : QueueId) (x : Queue) : (s.setQueue q x).smState = s.smState := by
  cases q <;> rfl
@[simp] theorem State.setQueue_cfgId (s : State) (q : QueueId) (x : Queue) : (s.setQueue q x).cfgId = s.cfgId := by
  cases q <;> rfl
@[simp] theorem State.setQueue_key (s : State) (q : QueueId) (x : Queue) : (s.setQueue q x).key = s.key := by
  cases q <;> rfl
@[simp] theorem State.setQueue_crcSeed (s : State) (q : QueueId) (x : Queue) : (s.setQueue q x).crcSeed = s.crcSeed := by
  cases q <;> rfl
@[simp] theorem State.setQueue_frameLen (s : State) (q : QueueId) (x : Queue) : (s.setQueue q x).frameLen = s.frameLen := by
  cases q <;> rfl
@[simp] theorem State.setQueue_msgHdr (s : State) (q : QueueId) (x : Queue) : (s.setQueue q x).msgHdr = s.msgHdr := by
  cases q <;> rfl
@[simp] theorem State.setQueue_msgAddr (s : State) (q : QueueId) (x : Queue) : (s.setQueue q x).msgAddr = s.msgAddr := by
  cases q <;> rfl
@[simp] theorem State.setQueue_evtOut (s : State) (q : QueueId) (x : Queue) : (s.setQueue q x).evtOut = s.evtOut := by
  cases q <;> rfl
@[simp] theorem State.setQueue_buf (s : State) (q : QueueId) (x : Queue) : (s.setQueue q x).buf = s.buf := by
  cases q <;> rfl
@[simp] theorem State.setQueue_pending (s : State) (q : QueueId) (x : Queue) : (s.setQueue q x).pending = s.pending := by
  cases q <;> rfl
@[simp] theorem State.setQueue_response (s : State) (q : QueueId) (x : Queue) : (s.setQueue q x).response = s.response := by
  cases q <;> rfl
@[simp] theorem State.setQueue_draws (s : State) (q : QueueId) (x : Queue) : (s.setQueue q x).draws = s.draws := by
  cases q <;> rfl

@[simp] theorem State.queue_setQueue_same (s : State) (q : QueueId) (x : Queue) : (s.setQueue q x).queue q = x := by
  cases q <;> rfl

theorem State.queue_setQueue_other (s : State) (q p : QueueId) (x : Queue) (h : p ≠ q) :
    (s.setQueue q x).queue p = s.queue p := by
  cases q <;> cases p <;> first | rfl | exact absurd rfl h

@[simp] theorem State.queue_setResult (s : State) (r : Result) (q : QueueId) : (s.setResult r).queue q = s.queue q := by
  cases q <;> rfl

@[simp] theorem State.queue_setEvtOut (s : State) (e : EvtOut) (q : QueueId) : (s.setEvtOut e).queue q = s.queue q := by
  cases q <;> rfl

@[simp] theorem State.queue_setBuf (s : State) (m : Memory) (q : QueueId) : (s.setBuf m).queue q = s.queue q := by
  cases q <;> rfl

@[simp] theorem State.queue_report (s : State) (op : Byte) (c : ResultCode) (v : Half) (q : QueueId) :
    (s.report op c v).queue q = s.queue q := by
  cases q <;> rfl

@[simp] theorem State.setQueue_hot_hotq (s : State) (x : Queue) : (s.setQueue .hot x).hotq = x := rfl

@[simp] theorem State.setQueue_hot_coldq (s : State) (x : Queue) : (s.setQueue .hot x).coldq = s.coldq := rfl

@[simp] theorem State.setQueue_cold_hotq (s : State) (x : Queue) : (s.setQueue .cold x).hotq = s.hotq := rfl

@[simp] theorem State.setQueue_cold_coldq (s : State) (x : Queue) : (s.setQueue .cold x).coldq = x := rfl

/-! ### resetBlock -/

@[simp] theorem State.resetBlock_result (s : State) : s.resetBlock.result = State.reset.result := rfl
@[simp] theorem State.resetBlock_smState (s : State) : s.resetBlock.smState = State.reset.smState := rfl
@[simp] theorem State.resetBlock_cfgId (s : State) : s.resetBlock.cfgId = State.reset.cfgId := rfl
@[simp] theorem State.resetBlock_key (s : State) : s.resetBlock.key = State.reset.key := rfl
@[simp] theorem State.resetBlock_crcSeed (s : State) : s.resetBlock.crcSeed = State.reset.crcSeed := rfl
@[simp] theorem State.resetBlock_frameLen (s : State) : s.resetBlock.frameLen = State.reset.frameLen := rfl
@[simp] theorem State.resetBlock_msgHdr (s : State) : s.resetBlock.msgHdr = State.reset.msgHdr := rfl
@[simp] theorem State.resetBlock_msgAddr (s : State) : s.resetBlock.msgAddr = State.reset.msgAddr := rfl
@[simp] theorem State.resetBlock_evtOut (s : State) : s.resetBlock.evtOut = State.reset.evtOut := rfl
@[simp] theorem State.resetBlock_hotq (s : State) : s.resetBlock.hotq = State.reset.hotq := rfl
@[simp] theorem State.resetBlock_coldq (s : State) : s.resetBlock.coldq = State.reset.coldq := rfl
@[simp] theorem State.resetBlock_buf (s : State) : s.resetBlock.buf = ⟨[], s.buf.epoch + 1⟩ := rfl
@[simp] theorem State.resetBlock_pending (s : State) : s.resetBlock.pending = s.pending := rfl
@[simp] theorem State.resetBlock_response (s : State) : s.resetBlock.response = State.reset.response := rfl
@[simp] theorem State.resetBlock_draws (s : State) : s.resetBlock.draws = s.draws := rfl

end Sys2Proof.Machine
end

