-- ==== Sys2Proof/Laws/Queues.lean ====
section
/-! SUPPORT. What a push and taking an event can do (43_event_queues.md R195, R199, R203), and what the arbiter chooses. -/

namespace Sys2Proof.Machine

open Sys2Proof

/-- Taking an event: an empty queue clears EVT_OUT and reports EMPTY; otherwise the oldest event goes to EVT_OUT and
the rest of the queue stays. -/
theorem takeEvent_spec (op : Byte) (q : QueueId) (s : State) :
    ((s.queue q).content = [] ∧ takeEvent op q s = (s.setEvtOut evtOutNone).report op .empty 0) ∨
    (∃ e x, (s.queue q).pop = some (e, x) ∧ (s.queue q).content = e :: x.content ∧
      takeEvent op q s =
        ((s.setQueue q x).setEvtOut (evtOutOf q e)).report op .ok (BitVec.ofNat 16 x.content.length)) := by
  rcases (s.queue q).pop_spec with ⟨h, hp⟩ | ⟨e, x, hp, hc⟩
  · exact .inl ⟨h, by simp [takeEvent, hp]⟩
  · exact .inr ⟨e, x, hp, hc, by simp [takeEvent, hp]⟩

/-- Everything Q_PUSH can do: KIND, FULL, or the event appended (R195). -/
theorem execQPush_cases (q : QueueId) (hp : Bool) (kind : Nat) (handle len : Byte) (s : State) :
    (kind ≥ 13 ∧ execQPush q hp kind handle len s = .next (s.report 0x20 .kind 0)) ∨
    (kind < 13 ∧ (s.queue q).content.length = 16 ∧
      execQPush q hp kind handle len s = .next (s.report 0x20 .full 0)) ∨
    (kind < 13 ∧ (s.queue q).content.length < 16 ∧
      ∃ x, x.content = (s.queue q).content ++ [⟨BitVec.ofNat 4 kind, hp, handle, len⟩] ∧
        execQPush q hp kind handle len s =
          .next ((s.setQueue q x).report 0x20 .ok (BitVec.ofNat 16 x.content.length))) := by
  simp only [execQPush, Params.kindCount]
  by_cases hk : kind ≥ 13
  · exact .inl ⟨hk, by rw [if_pos hk]⟩
  · right
    rw [if_neg hk]
    rcases (s.queue q).push_spec ⟨BitVec.ofNat 4 kind, hp, handle, len⟩ with ⟨h1, h2⟩ | ⟨h1, x, h2, h3⟩
    · exact .inl ⟨by omega, h1, by rw [h2]⟩
    · exact .inr ⟨by omega, h1, x, h3, by simp [h2]⟩

/-- The arbiter serves HOTQ when it holds an event, COLDQ when it holds one in Idle and HOTQ is empty (R202). -/
theorem arbiterChoice_spec (s : State) :
    (s.hotq.content ≠ [] ∧ arbiterChoice s = some .hot) ∨
    (s.hotq.content = [] ∧ s.smState = 0 ∧ s.coldq.content ≠ [] ∧ arbiterChoice s = some .cold) ∨
    (s.hotq.content = [] ∧ (s.smState ≠ 0 ∨ s.coldq.content = []) ∧ arbiterChoice s = none) := by
  simp only [arbiterChoice, Params.stateIdle, ne_eq, Queue.content_eq_nil_iff]
  by_cases h1 : s.hotq.count.val = 0
  · by_cases h2 : s.smState = 0
    · by_cases h3 : s.coldq.count.val = 0
      · simp [h1, h2, h3]
      · simp [h1, h2, h3, Nat.pos_of_ne_zero h3]
    · have h2' : ¬ s.smState = 0#4 := h2
      simp [h1, h2']
  · simp [h1, Nat.pos_of_ne_zero h1]

end Sys2Proof.Machine
end

