-- ==== Sys2Proof/Laws/Exec.lean ====
section
/-! SUPPORT. What any command can do: the fields it may write, and that it neither reads nor writes the port. -/

namespace Sys2Proof.Machine

open Sys2Proof

/-- Taking an event writes RESULT, EVT_OUT and at most the queue it names. -/
theorem takeEvent_frame (op : Byte) (q : QueueId) (s : State) :
    takeEvent op q s =
      { s with
        result := (takeEvent op q s).result
        evtOut := (takeEvent op q s).evtOut
        hotq := (takeEvent op q s).hotq
        coldq := (takeEvent op q s).coldq } := by
  rcases takeEvent_spec op q s with ⟨_, e⟩ | ⟨_, x, _, _, e⟩ <;> rw [e]
  · rfl
  · cases q <;> rfl

/-- No command writes SM_STATE, CFG_ID, a KEY register, CRC_SEED or the port (10_state.md R43). -/
theorem exec_frame {i : Instr} {s t : State} (h : exec i s = .next t) :
    t =
      { s with
        result := t.result
        buf := t.buf
        frameLen := t.frameLen
        msgHdr := t.msgHdr
        msgAddr := t.msgAddr
        evtOut := t.evtOut
        hotq := t.hotq
        coldq := t.coldq
        draws := t.draws } := by
  cases i with
  | crcCompute ps off len =>
    simp only [exec, execCrcCompute] at h
    split_ifs at h <;> cases h <;> rfl
  | frameSize type len =>
    simp only [exec, execFrameSize] at h
    cases h
    split <;> (try split_ifs) <;> rfl
  | encode =>
    simp only [exec, execEncode] at h
    cases h
    rcases encodeWith_cases Config.cipher (Config.nonceDraw s.draws) s with ⟨_, _, _, e⟩ | ⟨_, _, _, e⟩ <;> rw [e] <;> rfl
  | decode =>
    simp only [exec, execDecode] at h
    cases h
    rcases decodeWith_cases Config.cipher s with
      ⟨_, _, _, e⟩ | ⟨_, _, _, _, _, ⟨_, e⟩ | ⟨_, _, e⟩ | ⟨_, _, e⟩⟩ <;> rw [e] <;> rfl
  | qPush q hp kind handle len =>
    simp only [exec] at h
    rcases execQPush_cases q hp kind handle len s with ⟨_, e⟩ | ⟨_, _, e⟩ | ⟨_, _, x, _, e⟩ <;> rw [e] at h <;> cases h
    · rfl
    · rfl
    · cases q <;> rfl
  | qPop q =>
    cases h
    rw [takeEvent_frame]
  | arbNext =>
    simp only [exec, execArbNext] at h
    cases h
    cases arbiterChoice s with
    | none => rfl
    | some q => simp only; rw [takeEvent_frame]

/-- A command does the same whatever waits at the port. -/
theorem exec_pending (i : Instr) (s : State) (p : List PortEvent) :
    ∃ t, exec i s = .next t ∧ exec i { s with pending := p } = .next { t with pending := p } := by
  cases i with
  | crcCompute ps off len =>
    simp only [exec, execCrcCompute]
    split_ifs <;> exact ⟨_, rfl, rfl⟩
  | frameSize type len =>
    simp only [exec, execFrameSize]
    split <;> (try split_ifs) <;> exact ⟨_, rfl, rfl⟩
  | encode =>
    have hc : encodeChecks { s with pending := p } = encodeChecks s := rfl
    simp only [exec, execEncode, encodeWith, hc]
    cases encodeChecks s <;> exact ⟨_, rfl, rfl⟩
  | decode =>
    have hc : decodeChecks { s with pending := p } = decodeChecks s := rfl
    have hk : frameKeystream Config.cipher { s with pending := p } = frameKeystream Config.cipher s := rfl
    simp only [exec, execDecode, decodeWith, hc, hk]
    cases decodeChecks s with
    | error _ => exact ⟨_, rfl, rfl⟩
    | ok x =>
      simp only
      generalize crypt (frameKeystream Config.cipher s (frameNonce s.buf)) s.frameLen.toNat s.buf = m
      split_ifs <;> exact ⟨_, rfl, rfl⟩
  | qPush q hp kind handle len =>
    simp only [exec, execQPush]
    cases q <;> simp only [State.queue] <;> split_ifs <;> (try split) <;> exact ⟨_, rfl, rfl⟩
  | qPop q =>
    simp only [exec, execQPop]
    cases q <;> simp only [takeEvent, State.queue] <;> split <;> exact ⟨_, rfl, rfl⟩
  | arbNext =>
    have hc : arbiterChoice { s with pending := p } = arbiterChoice s := rfl
    simp only [exec, execArbNext, hc]
    cases arbiterChoice s with
    | none => exact ⟨_, rfl, rfl⟩
    | some q => cases q <;> simp only [takeEvent, State.queue] <;> split <;> exact ⟨_, rfl, rfl⟩

end Sys2Proof.Machine
end

