-- ==== Sys2Proof/Laws/Frame.lean ====
section
/-! SUPPORT. The frame of the codec byte by byte (41_frame_codec.md R131, R137): what ENCODE builds before it encrypts,
and what DECODE finds after it has decrypted. -/

namespace Sys2Proof.Machine

open Sys2Proof

/-- The bytes ENCODE writes before the payload are those of the plaintext frame. -/
theorem frameHead_getD (s : State) (t : FrameType) (n : Nat) (nonce : Half) (i : Nat)
    (hi : i < (frameHead t n nonce s.msgAddr).length) :
    (frameHead t n nonce s.msgAddr).getD i 0 = plainByte s t n nonce i := by
  cases t <;> simp [frameHead] at hi <;> interval_cases i <;> rfl

theorem headed_read (s : State) (t : FrameType) (n : Nat) (nonce : Half) (i : Nat) :
    (s.buf.writeBytes 0 (frameHead t n nonce s.msgAddr)).read i = plainByte s t n nonce i := by
  rw [Memory.read_writeBytes]
  split_ifs with h
  · exact frameHead_getD _ _ _ _ _ (by omega)
  · unfold plainByte
    cases t <;> simp [frameHead] at h <;> simp <;> (repeat rw [if_neg (by omega)])

/-- Every byte after ENCODE has built the plaintext frame. -/
theorem buildPlain_read (s : State) {t : FrameType} {n : Nat} (nonce : Half) (i : Nat) (hn : n ≤ Params.maxPayload) :
    (buildPlain t n nonce s.msgAddr s.buf).read i =
      if i < frameBytes t n then sealedByte s t n (frameBytes t n) nonce i else s.buf.read i := by
  have hb := frameBytes_bounds (t := t) hn
  have hc : frameCrc (s.buf.writeBytes 0 (frameHead t n nonce s.msgAddr)) (frameBytes t n) =
      crcOfBytes (plainByte s t n nonce) (frameBytes t n - 2) := by
    unfold frameCrc crcOfBytes Memory.bytes
    congr 1
    refine List.map_congr_left fun k _ => ?_
    simp only [Nat.zero_add]
    exact headed_read _ _ _ _ _
  unfold buildPlain
  simp only [hc]
  rw [Memory.read_writeBytes, headed_read]
  simp only [List.length_cons, List.length_nil]
  by_cases hi : i < frameBytes t n
  · rw [if_pos hi]
    unfold sealedByte
    by_cases h1 : i = frameBytes t n - 2
    · rw [if_pos (by omega), if_pos h1, h1]
      simp
      rfl
    · by_cases h2 : i = frameBytes t n - 1
      · rw [if_pos (by omega), if_neg h1, if_pos h2, show i - (frameBytes t n - 2) = 1 by omega]
        rfl
      · rw [if_neg (by omega), if_neg h1, if_neg h2]
  · rw [if_neg (by omega), if_neg hi, ← headed_read s t n nonce i, Memory.read_writeBytes, if_neg]
    cases t <;> simp [frameHead, frameBytes] at * <;> omega

/-- Every byte after DECODE has decrypted. -/
theorem opened_read (s : State) (i : Nat) :
    (crypt (frameKeystream Config.cipher s (frameNonce s.buf)) s.frameLen.toNat s.buf).read i = openedByte s i := by
  rw [crypt_read]
  rfl

/-- The CRC DECODE computes. -/
theorem frameCrc_opened (s : State) :
    frameCrc (crypt (frameKeystream Config.cipher s (frameNonce s.buf)) s.frameLen.toNat s.buf) s.frameLen.toNat =
      crcOfBytes (openedByte s) (s.frameLen.toNat - 2) := by
  unfold frameCrc crcOfBytes Memory.bytes
  congr 1
  refine List.map_congr_left fun k _ => ?_
  simp only [Nat.zero_add]
  exact opened_read _ _

end Sys2Proof.Machine
end

