-- ==== Sys2Proof/Laws/Operands.lean ====
section
/-! SUPPORT. Words put together from fields, as numbers: each field counts at its place (10_state.md R21 to R37). -/

namespace Sys2Proof.Machine

open Sys2Proof

/-- The number of a word whose upper part is `x` and lower part `y`. -/
theorem toNat_fields {n m : Nat} (x : BitVec n) (y : BitVec m) : (x ++ y).toNat = x.toNat * 2 ^ m + y.toNat := by
  rw [BitVec.toNat_append, Nat.shiftLeft_eq, Nat.mul_comm]
  exact (Nat.two_pow_add_eq_or_of_lt y.isLt _).symm

end Sys2Proof.Machine
end

