-- ==== Sys2Proof/Laws/PerInstr.lean ====
section
/-! SUPPORT. Facts of every instruction as syntax, one lemma per constructor. -/

namespace Sys2Proof

/-- The word of a command has the command's opcode in bits 7:0, whatever its operands (30_encoding.md R90, R94). -/
def Laws.OpcodeInLowByte.Statement (i : Instr) : Prop := opByte (encodeWord i) = i.opcode

/-- The low byte of a word put together from a 24-bit part and a byte. -/
theorem opByte_append (x : BitVec 24) (y : Byte) : opByte (x ++ y) = y := by
  apply BitVec.eq_of_getLsbD_eq
  intro i hi
  simp only [opByte, BitVec.getLsbD_extractLsb', BitVec.getLsbD_append]
  simp [hi]

theorem Laws.OpcodeInLowByte.crcCompute (ps : PolySel) (off len : Nat) :
    Laws.OpcodeInLowByte.Statement (.crcCompute ps off len) := opByte_append _ _

theorem Laws.OpcodeInLowByte.frameSize (type len : Nat) :
    Laws.OpcodeInLowByte.Statement (.frameSize type len) := opByte_append _ _

theorem Laws.OpcodeInLowByte.encode : Laws.OpcodeInLowByte.Statement .encode := opByte_append _ _

theorem Laws.OpcodeInLowByte.decode : Laws.OpcodeInLowByte.Statement .decode := opByte_append _ _

theorem Laws.OpcodeInLowByte.qPush (q : QueueId) (hp : Bool) (kind : Nat) (handle len : Byte) :
    Laws.OpcodeInLowByte.Statement (.qPush q hp kind handle len) := opByte_append _ _

theorem Laws.OpcodeInLowByte.qPop (q : QueueId) : Laws.OpcodeInLowByte.Statement (.qPop q) := opByte_append _ _

theorem Laws.OpcodeInLowByte.arbNext : Laws.OpcodeInLowByte.Statement .arbNext := opByte_append _ _

end Sys2Proof
end

