-- ==== Sys2Proof/Tests/Slice0.lean ====
section
/-! SUPPORT. Tests against the vectors of spec/95_test_vectors.md and the encodings of 30_encoding.md, and for every
statement with hypotheses a witness that meets them. Every expected value is the spec's. -/

namespace Sys2Proof.Tests

open Sys2Proof Sys2Proof.Machine

/-! ### Helpers -/

/-- What a step or command leaves, if it completes. -/
def after (o : Host.Outcome State Fault Refusal) : Option State :=
  match o with
  | .next t => some t
  | .fault _ => none
  | .refused _ => none

/-- RESULT after a step or command, as a word. -/
def resultAfter (o : Host.Outcome State Fault Refusal) : Option Word := (after o).map fun t => readReg t .result

/-- EVT_OUT after a step or command, as a word. -/
def evtAfter (o : Host.Outcome State Fault Refusal) : Option Word := (after o).map fun t => readReg t .evtOut

/-- The reset state with one event waiting at the port. -/
def withEvent (e : PortEvent) : State := { State.reset with pending := [e] }

/-- The reset state with these bytes at the start of FRAME_BUF. -/
def withBytes (bytes : List Byte) : State := State.reset.setBuf (State.reset.buf.writeBytes 0 bytes)

/-- "123456789". -/
def digits : List Byte := [0x31, 0x32, 0x33, 0x34, 0x35, 0x36, 0x37, 0x38, 0x39]

/-- A queue that holds `n` events {EXIT, 0, i, 0}, i = 0 .. n-1 (95 section 3.6). -/
def exitQueue (n : Fin 17) : Queue := ⟨Vector.ofFn fun i => ⟨1, false, BitVec.ofNat 8 i.val, 0⟩, 0, n⟩

/-- A queue that holds one event. -/
def oneQueue (e : Event) : Queue := ⟨Vector.replicate 16 e, 0, 1⟩

/-- TXREQ without a payload. -/
def txReq : Event := ⟨2, false, 0, 0⟩

/-- A state whose message is of this type, length and destination. -/
def withMsg (type : BitVec 4) (len dest : Byte) : State :=
  { State.reset with msgHdr := ⟨type, len, 0⟩, msgAddr := ⟨dest, 1, 1, 0⟩ }

/-- The toy cipher T2 of 95 section 1. -/
def toyCipher : Cipher where
  keystream k j := k.extractLsb' (8 * (15 - j % 16)) 8
  nonceMix g n := g ++ n ++ 0#96

/-- Message F1 of 95 section 3.4 under the common settings of 95 section 1. -/
def helloState : State :=
  { withBytes [0, 0, 0, 0, 0, 0, 0, 0, 0, 0x48, 0x45, 0x4C, 0x4C, 0x4F, 0, 0] with
    cfgId := ⟨2, 0xBEEF⟩
    key := #v[0x00010203, 0x04050607, 0x08090A0B, 0x0C0D0E0F]
    msgHdr := ⟨0, 5, 0⟩
    msgAddr := ⟨2, 1, 1, 0⟩ }

/-- The frame of V-CODEC-3, ready to be decoded. -/
def helloFrame : State :=
  { helloState with
    buf := State.reset.buf.writeBytes 0
      [0x10, 0x05, 0, 0, 0x12, 0x34, 0xBC, 0xEF, 0x11, 0x7F, 0x41, 0x49, 0x4A, 0x48, 0x6D, 0x8A]
    frameLen := 16 }

/-- Frame F2 of 95 section 3.4 in plaintext. -/
def ackPlain : List Byte := [0x11, 0, 0, 0, 0xA5, 0x5A, 1, 2, 1, 1, 0x80, 0x6E]

/-- Frame F3 of 95 section 3.4 in plaintext. -/
def castPlain : List Byte := [0x10, 0, 0, 0, 0, 0, 0xFF, 7, 200, 0x55, 0x4F]

/-- The state with this plaintext frame sealed in FRAME_BUF under the state's key, group and the hardware's cipher. -/
def sealIn (s : State) (plain : List Byte) : State :=
  { s with
    buf := s.buf.writeBytes 0 ((List.range plain.length).map fun i =>
      if 6 ≤ i then plain.getD i 0 ^^^ keystreamByte s (plain.getD 4 0 ++ plain.getD 5 0) (i - 6)
      else plain.getD i 0)
    frameLen := BitVec.ofNat 8 plain.length }

/-- Node `id` holding a sealed frame. -/
def receiver (id : Byte) (plain : List Byte) : State := sealIn { State.reset with cfgId := ⟨id, 0⟩ } plain

theorem sealIn_read (s : State) (plain : List Byte) (i : Nat) (hi : i < plain.length) :
    (sealIn s plain).buf.read i =
      if 6 ≤ i then plain.getD i 0 ^^^ keystreamByte s (plain.getD 4 0 ++ plain.getD 5 0) (i - 6)
      else plain.getD i 0 := by
  show (s.buf.writeBytes 0 _).read i = _
  rw [Memory.read_writeBytes, if_pos (by simpa using hi), Nat.sub_zero, List.getD_eq_getElem?_getD]
  simp [hi]

/-- DECODE's decryption gives the plaintext back. -/
theorem sealIn_opened (s : State) (plain : List Byte) (i : Nat) (hl : 6 ≤ plain.length) (hu : plain.length ≤ 255)
    (hi : i < plain.length) : openedByte (sealIn s plain) i = plain.getD i 0 := by
  have hlen : (sealIn s plain).frameLen.toNat = plain.length := by
    show (BitVec.ofNat 8 plain.length).toNat = _
    rw [BitVec.toNat_ofNat]; omega
  have hn : nonceInBuf (sealIn s plain) = plain.getD 4 0 ++ plain.getD 5 0 := by
    unfold nonceInBuf
    rw [sealIn_read _ _ 4 (by omega), sealIn_read _ _ 5 (by omega), if_neg (by omega), if_neg (by omega)]
  unfold openedByte
  rw [hlen, hn, sealIn_read _ _ _ hi]
  by_cases h6 : 6 ≤ i
  · rw [if_pos ⟨h6, hi⟩, if_pos h6]
    show plain.getD i 0 ^^^ keystreamByte s _ _ ^^^ keystreamByte s _ _ = _
    rw [BitVec.xor_assoc, BitVec.xor_self, BitVec.xor_zero]
  · rw [if_neg (by omega), if_neg h6]

/-- The CRC over a sealed frame is that over its plaintext. -/
theorem sealIn_crcOk (s : State) (plain : List Byte) (hl : 6 ≤ plain.length) (hu : plain.length ≤ 255) :
    openedCrcOk (sealIn s plain) ↔
      crc16Ibm ((List.range (plain.length - 2)).map fun i => plain.getD i 0) 0xFFFF =
        plain.getD (plain.length - 2) 0 ++ plain.getD (plain.length - 1) 0 := by
  have hlen : (sealIn s plain).frameLen.toNat = plain.length := by
    show (BitVec.ofNat 8 plain.length).toNat = _
    rw [BitVec.toNat_ofNat]; omega
  have hmap : (List.range (plain.length - 2)).map (openedByte (sealIn s plain)) =
      (List.range (plain.length - 2)).map fun i => plain.getD i 0 := by
    refine List.map_congr_left fun i hi => sealIn_opened s plain i hl hu ?_
    have := List.mem_range.mp hi
    omega
  unfold openedCrcOk crcOfBytes
  rw [hlen, hmap, sealIn_opened s plain _ hl hu (by omega), sealIn_opened s plain _ hl hu (by omega)]

/-! ### WellFormed refuses an operand that does not fit its field -/

theorem test_wf_crc_off : WellFormed (.crcCompute .ibm 256 0) = false := by decide
theorem test_wf_crc_len : WellFormed (.crcCompute .alt 0 256) = false := by decide
theorem test_wf_size_type : WellFormed (.frameSize 16 0) = false := by decide
theorem test_wf_size_len : WellFormed (.frameSize 0 256) = false := by decide
theorem test_wf_push_kind : WellFormed (.qPush .hot false 16 0 0) = false := by decide
theorem test_wf_accepts : WellFormed (.qPush .cold true 15 0xFF 0xFF) = true := by decide

/-! ### Words written out field by field from 30_encoding.md R91 to R94 -/

/-- `crc.alt 5, 9`: LEN 9, OFF 5, reserved 0, PS 1, opcode 0x01. -/
theorem test_decode_crc :
    decodeWord (0b00001001#8 ++ 0b00000101#8 ++ 0b0000000#7 ++ 0b1#1 ++ 0b00000001#8) =
      .ok (.crcCompute .alt 5 9) := rfl

/-- `fsize ACK, 200`: reserved 0, LEN 200, reserved 0, TYPE 1, opcode 0x10. -/
theorem test_decode_size :
    decodeWord (0b00000000#8 ++ 0b11001000#8 ++ 0b0000#4 ++ 0b0001#4 ++ 0b00010000#8) = .ok (.frameSize 1 200) := rfl

theorem test_decode_encode : decodeWord (0b000000000000000000000000#24 ++ 0b00010001#8) = .ok .encode := rfl

theorem test_decode_decode : decodeWord (0b000000000000000000000000#24 ++ 0b00010010#8) = .ok .decode := rfl

/-- `push.cold TXREQ, 7, 40`: LEN 40, HANDLE 7, KIND 2, reserved 0, HP 1, Q 1, opcode 0x20. -/
theorem test_decode_push :
    decodeWord (0b00101000#8 ++ 0b00000111#8 ++ 0b0010#4 ++ 0b00#2 ++ 0b1#1 ++ 0b1#1 ++ 0b00100000#8) =
      .ok (.qPush .cold true 2 7 40) := rfl

theorem test_decode_pop :
    decodeWord (0b00000000000000000000000#23 ++ 0b1#1 ++ 0b00100001#8) = .ok (.qPop .cold) := rfl

theorem test_decode_next : decodeWord (0b000000000000000000000000#24 ++ 0b00100010#8) = .ok .arbNext := rfl

/-- V-CMD-CRC-11: bit 15 of CRC_COMPUTE is reserved. -/
theorem test_decode_reserved : decodeWord 0x00008001 = .error (.reservedBits 0x01) := rfl

/-- V-ILL-2: 0x02 is no opcode. -/
theorem test_decode_undefined : decodeWord 0x00000002 = .error (.undefinedOpcode 0x02) := rfl

/-! ### One command from a small state -/

/-- V-CMD-CRC-1. -/
theorem test_crc_ibm : resultAfter (exec (.crcCompute .ibm 0 9) (withBytes digits)) = some 0x51180100 := by decide +kernel

/-- V-CMD-CRC-4. -/
theorem test_crc_alt :
    resultAfter (exec (.crcCompute .alt 0 9) { withBytes digits with crcSeed := 0x1D0F }) = some 0xE5CC0100 := by
  decide +kernel

/-- V-FSIZE-3. -/
theorem test_size_largest : resultAfter (exec (.frameSize 0 244) State.reset) = some 0x00FF1000 := by decide

/-- V-FSIZE-6. -/
theorem test_size_ack : resultAfter (exec (.frameSize 1 200) State.reset) = some 0x000C1000 := by decide

/-- V-CODEC-3: the frame's bytes under T2 with the draw 0x1234. -/
theorem test_encode_bytes :
    ((encodeWith toyCipher 0x1234 helloState).buf.bytes 0 16, readReg (encodeWith toyCipher 0x1234 helloState) .msgHdr) =
      ([0x10, 0x05, 0, 0, 0x12, 0x34, 0xBC, 0xEF, 0x11, 0x7F, 0x41, 0x49, 0x4A, 0x48, 0x6D, 0x8A], 0x12340500) := by
  decide +kernel

/-- V-ENC-E8: TYPE is checked before LENGTH and ADDR. -/
theorem test_encode_type_first : resultAfter (exec .encode (withMsg 2 245 0)) = some 0x00001104 := by decide

/-- V-CODEC-6: RESULT, MSG_HDR, MSG_ADDR and the payload. -/
theorem test_decode_hello :
    (readReg (decodeWith toyCipher helloFrame) .result, readReg (decodeWith toyCipher helloFrame) .msgHdr,
        readReg (decodeWith toyCipher helloFrame) .msgAddr, (decodeWith toyCipher helloFrame).buf.bytes 9 5) =
      (0x00101200, 0x12340500, 0x00010102, [0x48, 0x45, 0x4C, 0x4C, 0x4F]) := by
  decide +kernel

/-- V-DEC-16: the version is checked first. -/
theorem test_decode_version : resultAfter (exec .decode { withBytes [0x20] with frameLen := 1 }) = some 0x00001203 := by
  decide

/-- V-Q-9: STATUS of a full HOTQ and one cold event in Idle. -/
theorem test_push_cold :
    (after (exec (.qPush .cold false 2 0 0) { State.reset with hotq := exitQueue 16, smState := 0 })).map
      (fun t => readReg t .status) = some 0x00120110 := by decide

/-- V-Q-7: KIND before FULL. -/
theorem test_push_kind_first :
    resultAfter (exec (.qPush .hot false 15 0 0) { State.reset with hotq := exitQueue 16 }) = some 0x0000200B := by decide

/-- V-Q-11: a cold pop in no Idle state, RESULT and EVT_OUT. -/
theorem test_pop_cold :
    (resultAfter (exec (.qPop .cold) { State.reset with coldq := oneQueue txReq }),
      evtAfter (exec (.qPop .cold) { State.reset with coldq := oneQueue txReq })) =
      (some 0x00002100, some 0x00002003) := by decide

/-- V-Q-3. -/
theorem test_pop_empty : resultAfter (exec (.qPop .hot) State.reset) = some 0x0000210A := by decide

/-- V-Q-10: the hot event first. -/
theorem test_next_hot :
    (resultAfter (exec .arbNext { State.reset with hotq := exitQueue 16, coldq := oneQueue txReq, smState := 0 }),
      evtAfter (exec .arbNext { State.reset with hotq := exitQueue 16, coldq := oneQueue txReq, smState := 0 })) =
      (some 0x000F2200, some 0x00001001) := by decide

/-- V-Q-14: state 12 is not Idle. -/
theorem test_next_not_idle :
    resultAfter (exec .arbNext { State.reset with coldq := oneQueue txReq, smState := 12 }) = some 0x0000220A := by decide

/-! ### One step -/

/-- V-ILL-5. -/
theorem test_step_illegal : resultAfter (step (withEvent (cmdWrite 0x00010011))) = some 0x00001101 := by decide

/-- V-REG-4. -/
theorem test_write_cfg :
    (after (step (withEvent (.write 0x010 4 0xFFFFFFFF)))).map (fun t => readReg t .cfgId) = some 0xFFFF00FF := by decide

/-- V-REG-7. -/
theorem test_write_hdr :
    (after (step { withEvent (.write 0x02C 4 0xFFFFFFFF) with msgHdr := ⟨0, 5, 0x1234⟩ })).map
      (fun t => readReg t .msgHdr) = some 0x1234FF0F := by decide

/-- V-BUS-7, the read. -/
theorem test_read_byte :
    (after (step { withEvent (.read 0x105 1) with buf := State.reset.buf.write 5 0xAB })).map (·.response) =
      some (.data 1 0xAB) := by decide

/-- V-BUS-6: a byte write to CMD executes nothing. -/
theorem test_bus_error : step (withEvent (.write 0x000 1 0x22)) = .fault (.busError 0x000) := rfl

/-- Each row of the opcode table is executed by the first step after reset. -/
theorem test_first_step :
    [(0x01, 0x01), (0x10, 0x10), (0x11, 0x11), (0x12, 0x12), (0x20, 0x20), (0x21, 0x21), (0x22, 0x22)].map
      (fun p => (after (step (State.reset.withFetchWord 32 p.1))).map (·.result.op == BitVec.ofNat 8 p.2)) =
      List.replicate 7 (some true) := by decide +kernel

/-! ### Witnesses: for each statement with hypotheses, values that meet them -/

theorem witness_DecodeOfEncodeIsTheCommand :
    WellFormed (.crcCompute .alt 255 255) = true ∧ WellFormed (.frameSize 15 255) = true ∧
      WellFormed (.qPush .cold true 15 255 255) = true ∧ WellFormed (.qPop .cold) = true ∧
      WellFormed .encode = true ∧ WellFormed .decode = true ∧ WellFormed .arbNext = true := by decide

theorem witness_EncodeOfDecodeIsTheWord : decodeWord 0xFFFFF320 = .ok (.qPush .cold true 15 0xFF 0xFF) := rfl

theorem witness_DecoderReadsTheRowAWordSelects :
    (0xFFFF0101 : Word) &&& 0x0000FEFF = 0x00000001 ∧ (0x00FF0F10 : Word) &&& 0xFF00F0FF = 0x00000010 ∧
      (0x00000011 : Word) &&& 0xFFFFFFFF = 0x00000011 ∧ (0x00000012 : Word) &&& 0xFFFFFFFF = 0x00000012 ∧
      (0xFFFFF320 : Word) &&& 0x00000CFF = 0x00000020 ∧ (0x00000121 : Word) &&& 0xFFFFFEFF = 0x00000021 ∧
      (0x00000022 : Word) &&& 0xFFFFFFFF = 0x00000022 ∧ (∀ r ∈ opcodeMap, (0x00000221 : Word) &&& r.2 ≠ r.1) ∧
      ((0x00000022, 0xFFFFFFFF) : Word × Word) ∈ opcodeMap :=
  ⟨rfl, rfl, rfl, rfl, rfl, rfl, rfl, by simp [opcodeMap], by decide⟩

theorem witness_AssemblerWordsAreThoseOfTheTable : (255 : Nat) < 256 ∧ (15 : Nat) < 16 := by decide

theorem witness_StepRunsTheDecodedCommand :
    (State.reset.withFetchWord 32 0x11).pending = .write 0x000 4 0x11 :: [] ∧ decodeWord 0x11 = .ok .encode ∧
      WellFormed .encode = true := ⟨rfl, rfl, rfl⟩

theorem witness_IllegalWordWritesOnlyResult :
    (withEvent (cmdWrite 0x00000201)).pending = .write 0x000 4 0x00000201 :: [] ∧
      ¬ ∃ r ∈ opcodeMap, (0x00000201 : Word) &&& r.2 = r.1 := by decide

theorem witness_ResetInputReplacesTheState : (withEvent .reset).pending = .reset :: [] := rfl

/-- The invariant holds after reset, also with an event waiting. -/
theorem withEvent_inv (e : PortEvent) : (withEvent e).Inv := by
  refine ⟨rfl, fun h => absurd rfl h, ?_, ?_, fun _ => ?_⟩
  · show ∀ e ∈ State.reset.hotq.content, e.kind.toNat < 13
    decide
  · show ∀ e ∈ State.reset.coldq.content, e.kind.toNat < 13
    decide
  · show evtOutWord State.reset.evtOut = 0
    decide

theorem witness_StepKeepsTheInvariant :
    (withEvent (.write 0x1FF 1 0xAB)).Inv ∧ ∃ t, step (withEvent (.write 0x1FF 1 0xAB)) = .next t :=
  ⟨withEvent_inv _, _, rfl⟩

theorem witness_BusErrorExactlyOnIllegalAccess :
    ((withEvent (.read 0x1FF 1)).pending = .read 0x1FF 1 :: [] ∧ (0x1FF : Nat) < 0x200 ∧ legalAccess 0x1FF 1) ∧
      ((withEvent (.read 0x038 4)).pending = .read 0x038 4 :: [] ∧ (0x038 : Nat) < 0x200 ∧ ¬ legalAccess 0x038 4) ∧
      ((withEvent (.write 0x034 4 0)).pending = .write 0x034 4 0 :: [] ∧ (0x034 : Nat) < 0x200 ∧ legalAccess 0x034 4) ∧
      ((withEvent (.write 0x000 1 0)).pending = .write 0x000 1 0 :: [] ∧ (0x000 : Nat) < 0x200 ∧
        ¬ legalAccess 0x000 1) := by
  unfold legalAccess; decide

theorem witness_AccessOutsideTheWindowIsRefused :
    ((withEvent (.read 0x200 1)).pending = .read 0x200 1 :: [] ∧ 0x200 ≤ 0x200) ∧
      ((withEvent (.write 0x200 4 0)).pending = .write 0x200 4 0 :: [] ∧ 0x200 ≤ 0x200) := by decide

theorem witness_LegalEventsComplete :
    ((withEvent (.read 0x100 1)).pending = .read 0x100 1 :: [] ∧ (PortEvent.read 0x100 1).legal) ∧
      ((withEvent (.write 0x034 4 0)).pending = .write 0x034 4 0 :: [] ∧ (PortEvent.write 0x034 4 0).legal) ∧
      ((withEvent .reset).pending = .reset :: [] ∧ PortEvent.reset.legal) := by
  unfold PortEvent.legal legalAccess; decide

theorem witness_LegalReadAnswersAndChangesNothing :
    (withEvent (.read 0x034 4)).pending = .read Reg.evtOut.offset 4 :: [] ∧
      (withEvent (.read 0x1FF 1)).pending = .read (0x100 + 255) 1 :: [] ∧ (255 : Nat) < 256 := by decide

theorem witness_RegisterWriteStoresTheRwFields :
    ∀ r ∈ [Reg.result, .smState, .cfgId, .key 0, .key 3, .crcSeed, .frameLen, .msgHdr, .msgAddr, .evtOut],
      r ≠ .cmd ∧ r ≠ .status ∧
        (withEvent (.write r.offset 4 0xFFFFFFFF)).pending = .write r.offset 4 0xFFFFFFFF :: [] := by decide

theorem witness_WritesToReadOnlyRegistersAreIgnored :
    (withEvent (.write 0x004 4 1)).pending = .write Reg.result.offset 4 1 :: [] ∧
      (withEvent (.write 0x008 4 1)).pending = .write Reg.status.offset 4 1 :: [] ∧
      (withEvent (.write 0x034 4 1)).pending = .write Reg.evtOut.offset 4 1 :: [] := by decide

theorem witness_BufferWriteStoresOneByte :
    (255 : Nat) < 256 ∧ (withEvent (.write 0x1FF 1 0xAB)).pending = .write (0x100 + 255) 1 0xAB :: [] := by decide

theorem witness_WritesOtherThanCmdAreIdempotent :
    (0x1FF : Nat) ≠ 0x000 ∧ ∃ t, perform (.write 0x1FF 1 0xAB) State.reset = .next t := ⟨by decide, _, rfl⟩

theorem witness_StatusShowsQueuesAndEligibility :
    (withEvent (.write 0x008 4 0xFFFFFFFF)).pending = .write 0x008 4 0xFFFFFFFF :: [] := rfl

theorem witness_OnlyTheHostWritesSmState :
    (∃ t, step (withEvent (.write 0x00C 4 0)) = .next t ∧ t.smState ≠ (withEvent (.write 0x00C 4 0)).smState) ∧
      (∃ t, exec .arbNext State.reset = .next t) ∧
      (withEvent (.write 0x00C 4 15)).pending = .write 0x00C 4 15 :: [] := ⟨⟨_, rfl, by decide⟩, ⟨_, rfl⟩, rfl⟩

theorem witness_CommandsLeaveTheConfiguration : ∃ t, exec .encode (withMsg 0 0 2) = .next t := ⟨_, rfl⟩

/-- RANGE, CRC and EMPTY: one witness for each way to fail. -/
theorem witness_FailingCommandsWriteOnlyResult :
    (∃ t, exec (.crcCompute .ibm 255 2) State.reset = .next t ∧ t.result.code ≠ .ok) ∧
      (∃ t, exec .decode State.reset = .next t ∧ t.result.code ≠ .ok) ∧
      ∃ t, exec (.qPop .cold) State.reset = .next t ∧ t.result.code ≠ .ok :=
  ⟨⟨_, rfl, by decide⟩, ⟨_, rfl, by decide⟩, ⟨_, rfl, by decide⟩⟩

theorem witness_ResultIsWrittenByCommandsAlone :
    ∃ t, step (withEvent (cmdWrite 0x00050010)) = .next t ∧ t.result ≠ (withEvent (cmdWrite 0x00050010)).result :=
  ⟨_, rfl, by decide⟩

theorem witness_EveryCommandWordRecordsItsOpcode :
    (withEvent (cmdWrite 0x12)).pending = .write 0x000 4 0x12 :: [] := rfl

/-- The registers of the recurrence of R172 over a range of bytes, one a bit. -/
def registers (ps : PolySel) (seed : Half) (byte : Nat → Byte) : Nat → Half
  | 0 => seed
  | k + 1 =>
    if (registers ps seed byte k).getLsbD 15 = (byte (k / 8)).getLsbD (7 - k % 8) then registers ps seed byte k <<< 1
    else (registers ps seed byte k <<< 1) ^^^ (if ps = .ibm then 0x8005 else 0x1021)

/-- The hand check V-CRC-H1, and "123456789" under the second polynomial (95 section 3.1), by the recurrence alone. -/
theorem test_registers :
    (~~~registers .ibm 0x0000 (fun _ => 0x01) 8, registers .alt 0xFFFF (fun k => digits.getD k 0) 72) =
      (0x7FFA, 0x29B1) := by decide +kernel

/-- Each range clause at the ends of its range, and the registers of a range that ends at buf[255]. -/
theorem witness_CrcComputeReportsTheCrcOfTheRange (ps : PolySel) (s : State) :
    255 + 2 > 256 ∧ 255 + 1 ≤ 256 ∧ 1 + 255 ≤ 256 ∧
      ∃ c : Nat → Half, c 0 = s.crcSeed ∧ ∀ k, k < 8 * 255 →
        c (k + 1) =
          if (c k).getLsbD 15 = (s.buf.read (1 + k / 8)).getLsbD (7 - k % 8) then c k <<< 1
          else (c k <<< 1) ^^^ (if ps = .ibm then 0x8005 else 0x1021) :=
  ⟨by decide, by decide, by decide, registers ps s.crcSeed fun k => s.buf.read (1 + k), rfl, fun _ _ => rfl⟩

theorem witness_CrcOfNoBytesIsTheSeed : (255 : Nat) < 256 := by decide

theorem witness_CrcRegisterIsLinear : digits.length = (List.replicate 9 (0xFF : Byte)).length := by decide

theorem witness_CrcChainsAcrossCommands :
    251 + (4 + 1) ≤ 256 ∧ ∃ t u whole, exec (.crcCompute .ibm 251 4) State.reset = .next t ∧
      exec (.crcCompute .ibm (251 + 4) 1)
        { t with crcSeed := if PolySel.ibm = .ibm then ~~~t.result.value else t.result.value } = .next u ∧
      exec (.crcCompute .ibm 251 (4 + 1)) State.reset = .next whole := ⟨by decide, _, _, _, rfl, rfl, rfl⟩

theorem witness_CrcSeesEverySingleBitFlip : (7 : Nat) < 8 := by decide

theorem witness_FrameSizeReportsTheSize :
    ((0 : Nat) = 0 ∧ 244 ≤ 244) ∧ ((0 : Nat) = 0 ∧ 245 > 244) ∧ (1 : Nat) = 1 ∧ ((2 : Nat) ≠ 0 ∧ (2 : Nat) ≠ 1) := by
  decide

theorem witness_CrcAndFrameSizeFrame :
    (∃ t, exec (.crcCompute .alt 0 255) State.reset = .next t) ∧ ∃ t, exec (.frameSize 1 0) State.reset = .next t :=
  ⟨⟨_, rfl⟩, ⟨_, rfl⟩⟩

/-- One state for each refusal, at the ends of the refused ranges. -/
theorem witness_EncodeRefusalsWriteOnlyResult :
    ((withMsg 2 0 2).msgHdr.type ≠ 0 ∧ (withMsg 2 0 2).msgHdr.type ≠ 1) ∧
      ((withMsg 0 245 2).msgHdr.type = 0 ∧ (withMsg 0 245 2).msgHdr.len.toNat > 244) ∧
      ((withMsg 0 244 0xFB).msgHdr.type = 0 ∧ (withMsg 0 244 0xFB).msgHdr.len.toNat ≤ 244 ∧
        0xFB ≤ (withMsg 0 244 0xFB).msgAddr.dest.toNat ∧ (withMsg 0 244 0xFB).msgAddr.dest.toNat ≤ 0xFE) ∧
      ((withMsg 1 255 0xFE).msgHdr.type = 1 ∧ 0xFB ≤ (withMsg 1 255 0xFE).msgAddr.dest.toNat ∧
        (withMsg 1 255 0xFE).msgAddr.dest.toNat ≤ 0xFE) ∧
      (withMsg 1 0 0).msgAddr.dest = 0x00 := by decide

theorem witness_EncodeBuildsTheSealedFrame :
    encodeAccepts (withMsg 0 244 0xFA) .standard 244 255 ∧ encodeAccepts (withMsg 0 0 0xFF) .standard 0 11 ∧
      encodeAccepts (withMsg 1 255 1) .ack 0 12 := by
  refine ⟨⟨by decide, by decide, by decide⟩, ⟨by decide, by decide, by decide⟩, ⟨by decide, by decide, by decide⟩⟩

theorem witness_EncodeFrame :
    (∃ t, exec .encode (withMsg 0 244 2) = .next t ∧ t.result.code = .ok ∧ t.frameLen.toNat ≤ 255) ∧
      ∃ t, exec .encode (withMsg 2 0 2) = .next t ∧ t.result.code ≠ .ok :=
  ⟨⟨_, rfl, rfl, by decide⟩, ⟨_, rfl, by decide⟩⟩

theorem witness_EncodeIgnoresTheFieldsItDoesNotCheck :
    (∃ t, (withMsg 0 5 2).msgHdr.type = 0 ∧ exec .encode (withMsg 0 5 2) = .next t) ∧
      ∃ t, (withMsg 1 5 2).msgHdr.type = 1 ∧ exec .encode (withMsg 1 5 2) = .next t :=
  ⟨⟨_, rfl, rfl⟩, ⟨_, rfl, rfl⟩⟩

theorem witness_EncodeAndFrameSizeAgree :
    ∃ t, exec .encode (withMsg 0 244 2) = .next t ∧ t.result.code = .ok := ⟨_, rfl, rfl⟩

/-- Each check before decryption fails in some state, the length checks at the ends of their ranges. -/
theorem witness_DecodeHeaderChecksInOrder :
    State.reset.frameLen = 0 ∧
      (let s : State := { withBytes [0x20] with frameLen := 1 };
        s.frameLen ≠ 0 ∧ (s.buf.read 0).extractLsb' 4 4 ≠ 1#4) ∧
      (let s : State := { withBytes [0x12] with frameLen := 255 };
        s.frameLen ≠ 0 ∧ (s.buf.read 0).extractLsb' 4 4 = 1#4 ∧ (s.buf.read 0).extractLsb' 0 4 ≠ 0#4 ∧
          (s.buf.read 0).extractLsb' 0 4 ≠ 1#4) ∧
      (let s : State := { withBytes [0x10, 245] with frameLen := 255 };
        s.frameLen ≠ 0 ∧ (s.buf.read 0).extractLsb' 4 4 = 1#4 ∧ (s.buf.read 0).extractLsb' 0 4 = 0#4 ∧
          (s.buf.read 1).toNat > 244) ∧
      (let s : State := { withBytes [0x10, 0] with frameLen := 12 };
        s.frameLen ≠ 0 ∧ (s.buf.read 0).extractLsb' 4 4 = 1#4 ∧ (s.buf.read 0).extractLsb' 0 4 = 0#4 ∧
          s.frameLen.toNat ≠ 11 + (s.buf.read 1).toNat) ∧
      (let s : State := { withBytes [0x11, 0] with frameLen := 11 };
        s.frameLen ≠ 0 ∧ (s.buf.read 0).extractLsb' 4 4 = 1#4 ∧ (s.buf.read 0).extractLsb' 0 4 = 1#4 ∧
          s.frameLen.toNat ≠ 12) := by decide

/-- A whole Ack for this node: its header, its CRC and its destination pass. -/
theorem receiver_accepts :
    headerAccepts (receiver 1 ackPlain) .ack 0 ∧ openedCrcOk (receiver 1 ackPlain) ∧ openedForMe (receiver 1 ackPlain) .ack := by
  refine ⟨⟨by decide, by decide⟩, (sealIn_crcOk _ ackPlain (by decide) (by decide)).mpr (by decide +kernel), .inl ?_⟩
  exact sealIn_opened _ ackPlain 6 (by decide) (by decide) (by decide)

/-- The same Ack at another node: only its destination fails. -/
theorem receiver_not_for_me :
    headerAccepts (receiver 2 ackPlain) .ack 0 ∧ openedCrcOk (receiver 2 ackPlain) ∧
      ¬ openedForMe (receiver 2 ackPlain) .ack := by
  refine ⟨⟨by decide, by decide⟩, (sealIn_crcOk _ ackPlain (by decide) (by decide)).mpr (by decide +kernel), ?_⟩
  unfold openedForMe receiver
  rw [sealIn_opened _ ackPlain 6 (by decide) (by decide) (by decide)]
  decide

/-- A broadcast whose CRC field is wrong: its header passes and its CRC does not. -/
theorem receiver_wrong_crc :
    headerAccepts (receiver 2 (castPlain.set 10 0x4E)) .standard 0 ∧ ¬ openedCrcOk (receiver 2 (castPlain.set 10 0x4E)) := by
  refine ⟨⟨by decide, by decide⟩, ?_⟩
  unfold receiver
  rw [sealIn_crcOk _ _ (by decide) (by decide)]
  decide +kernel

theorem witness_DecodeOpensTheFrame :
    (headerAccepts (receiver 1 ackPlain) .ack 0 ∧ openedCrcOk (receiver 1 ackPlain) ∧
        openedForMe (receiver 1 ackPlain) .ack) ∧
      (headerAccepts (receiver 2 ackPlain) .ack 0 ∧ openedCrcOk (receiver 2 ackPlain) ∧
        ¬ openedForMe (receiver 2 ackPlain) .ack) ∧
      headerAccepts (receiver 2 (castPlain.set 10 0x4E)) .standard 0 ∧
        ¬ openedCrcOk (receiver 2 (castPlain.set 10 0x4E)) :=
  ⟨receiver_accepts, receiver_not_for_me, receiver_wrong_crc⟩

theorem witness_DecodeFrame : ∃ t, exec .decode State.reset = .next t ∧ t.result.code ≠ .ok := ⟨_, rfl, by decide⟩

theorem witness_VersionMismatchIsDecidedFirst :
    ∃ t, ({ withBytes [0x20] with frameLen := 1 } : State).frameLen ≠ 0 ∧
      exec .decode { withBytes [0x20] with frameLen := 1 } = .next t ∧ t.result.code = .version :=
  ⟨_, by decide, rfl, rfl⟩

/-- The Ack at another node passes the header checks. -/
theorem receiver_checks : decodeChecks (receiver 2 ackPlain) = .ok (.ack, 0) := rfl

/-- So it is decrypted, and refused: its destination is not this node. -/
theorem receiver_refused :
    (decodeWith Config.cipher (receiver 2 ackPlain)).result.code = .crc ∨
      (decodeWith Config.cipher (receiver 2 ackPlain)).result.code = .notForMe := by
  rcases decodeWith_cases Config.cipher (receiver 2 ackPlain) with
    ⟨c, _, he, _⟩ | ⟨t, n, p, he, hp, ⟨_, e⟩ | ⟨_, _, e⟩ | ⟨_, ha, _⟩⟩
  · rw [receiver_checks] at he; cases he
  · exact .inl (by rw [e]; rfl)
  · exact .inr (by rw [e]; rfl)
  · rw [receiver_checks] at he
    cases he
    have h6 : p.read 6 = 1 := by
      rw [hp, crypt_read]
      exact sealIn_opened _ ackPlain 6 (by decide) (by decide) (by decide)
    rw [h6] at ha
    exact absurd ha (by decide)

theorem witness_DecodeFailureSideEffects :
    (∃ t, exec .decode State.reset = .next t ∧ t.result.code = .length) ∧
      ∃ t u, exec .decode (receiver 2 ackPlain) = .next t ∧
        (t.result.code = .crc ∨ t.result.code = .notForMe) ∧ exec .decode t = .next u :=
  ⟨⟨_, rfl, rfl⟩, ⟨_, _, rfl, receiver_refused, rfl⟩⟩

/-- The receiver is the sender itself, under each kind of destination R146 names. -/
theorem witness_DecodeOfEncodeReturnsTheMessage :
    (let s := { withMsg 0 244 2 with cfgId := ⟨2, 7⟩ }
      let t := encodeWith Config.cipher 0 s
      t.result.code = .ok ∧ carriesFrame t t ∧ t.cfgId.myId = s.msgAddr.dest) ∧
      (let s := withMsg 0 0 0xFF
        let t := encodeWith Config.cipher 0 s
        t.result.code = .ok ∧ carriesFrame t t ∧ s.msgHdr.type = 0 ∧ s.msgAddr.dest = 0xFF) ∧
      (let s := withMsg 1 0 0xFF
        let t := encodeWith Config.cipher 0 s
        t.result.code = .ok ∧ carriesFrame t t ∧ s.msgHdr.type = 1 ∧ s.msgAddr.dest = 0xFF ∧ t.cfgId.myId ≠ 0xFF) := by
  refine ⟨⟨rfl, ⟨fun _ _ => rfl, rfl, rfl, rfl⟩, rfl⟩, ⟨rfl, ⟨fun _ _ => rfl, rfl, rfl, rfl⟩, rfl, rfl⟩,
    ⟨rfl, ⟨fun _ _ => rfl, rfl, rfl, rfl⟩, rfl, rfl, by decide⟩⟩

/-- A frame with one bit flipped in transit, at the ends of each range of bytes R147 names. -/
theorem witness_SingleBitFlipsOutsideTheNonceAreRefused (j k : Nat) (s : State) (h : s = withMsg 0 0 2 ∨ s = withMsg 1 0 2) :
    (encodeWith Config.cipher 0 s).result.code = .ok ∧
      ∃ u, carriesFlipped (encodeWith Config.cipher 0 s) u j k := by
  refine ⟨by rcases h with rfl | rfl <;> rfl, ?_⟩
  refine ⟨(encodeWith Config.cipher 0 s).setBuf ((encodeWith Config.cipher 0 s).buf.write j
    ((encodeWith Config.cipher 0 s).buf.read j ^^^ (1#8 <<< k))), fun i _ => ?_, rfl, rfl, rfl⟩
  show (Memory.write _ _ _).read i = _
  rw [Memory.read_write]
  by_cases hij : i = j
  · simp [hij]
  · rw [if_neg hij, if_neg hij]

theorem witness_CodecIgnoresQueuesAndArbiter : Instr.encode = .encode ∨ Instr.encode = .decode := by decide

theorem witness_QueueCommandsIgnoreTheCodec :
    (∃ q hp kind handle len, Instr.qPush .cold true 12 1 1 = .qPush q hp kind handle len) ∧
      (∃ q, Instr.qPop .hot = .qPop q) ∧ Instr.arbNext = .arbNext := ⟨⟨_, _, _, _, _, rfl⟩, ⟨_, rfl⟩, rfl⟩

theorem witness_PushAppendsTheEvent :
    (13 : Nat) ≥ 13 ∧ (12 : Nat) < 13 ∧ ({ State.reset with hotq := exitQueue 16 }.queue .hot).content.length = 16 ∧
      ({ State.reset with hotq := exitQueue 15 }.queue .hot).content.length < 16 := by decide

theorem witness_PopRemovesTheOldestEvent :
    (State.reset.queue .cold).content = [] ∧
      ({ State.reset with coldq := oneQueue txReq }.queue .cold).content = txReq :: [] := by decide

theorem witness_ArbNextServesByPriority :
    ({ State.reset with hotq := oneQueue txReq } : State).hotq.content = txReq :: [] ∧
      (let s : State := { State.reset with coldq := oneQueue txReq, smState := 0 };
        s.hotq.content = [] ∧ s.smState = 0 ∧ s.coldq.content = txReq :: []) ∧
      (let s : State := { State.reset with coldq := oneQueue txReq };
        s.hotq.content = [] ∧ s.smState ≠ 0) ∧
      State.reset.hotq.content = [] ∧ State.reset.coldq.content = [] := by decide

theorem witness_QueueCommandsFrame :
    (∃ t, exec (.qPush .cold true 2 7 40) State.reset = .next t) ∧ (∃ t, exec (.qPop .hot) State.reset = .next t) ∧
      ∃ t, exec .arbNext State.reset = .next t := ⟨⟨_, rfl⟩, ⟨_, rfl⟩, ⟨_, rfl⟩⟩

theorem witness_QueuesAreIndependent :
    QueueId.cold ≠ .hot ∧ (∃ t, exec (.qPush .hot true 2 7 40) State.reset = .next t) ∧
      ∃ t, exec (.qPop .hot) State.reset = .next t := ⟨by decide, ⟨_, rfl⟩, ⟨_, rfl⟩⟩

theorem witness_SixteenEventsFitAndComeBackInOrder :
    (State.reset.queue .hot).content = [] ∧ (List.replicate 17 txReq).length = 17 ∧
      (∀ e ∈ List.replicate 17 txReq, e.kind.toNat < 13) ∧ (1 ≤ 16 ∧ 16 ≤ 16) ∧
      ((15 : Nat) < 16 ∧ (List.replicate 17 txReq)[15]? = some txReq) := by decide

theorem witness_ColdEventsStayUntilIdle : ∃ t, step (withEvent (cmdWrite 0x22)) = .next t := ⟨_, rfl⟩

theorem witness_HotEventsComeFirst :
    ({ State.reset with hotq := oneQueue txReq } : State).hotq.content ≠ [] ∧
      ∃ t, exec .arbNext { State.reset with hotq := oneQueue txReq } = .next t := ⟨by decide, _, rfl⟩

theorem witness_SetKeyWritesTheKeyBytes (k : Vector Byte 16) :
    ({ State.reset with pending := expand (.setKey k) } : State).pending = expand (.setKey k) := rfl

theorem witness_WrBufWritesItsBytes :
    247 + digits.length ≤ 256 ∧ digits ≠ [] ∧
      ({ State.reset with pending := expand (.wrBuf 247 digits) } : State).pending = expand (.wrBuf 247 digits) :=
  ⟨by decide, by decide, rfl⟩

end Sys2Proof.Tests
end

section
/-! PROOF. Everything a command can do, said once: `CmdEffect` lists the effects and `exec_effect` shows that each
command, from each state, completes with one of them. The frames of the commands are case splits over it. -/

namespace Sys2Proof.Machine

open Sys2Proof

/-! ### The commands, one arm each (30_encoding.md R94) -/

@[simp] theorem exec_crcCompute (ps : PolySel) (off len : Nat) (s : State) :
    exec (.crcCompute ps off len) s = execCrcCompute ps off len s := rfl

@[simp] theorem exec_frameSize (type len : Nat) (s : State) :
    exec (.frameSize type len) s = execFrameSize type len s := rfl

@[simp] theorem exec_encode (s : State) :
    exec .encode s = .next (encodeWith Config.cipher (Config.nonceDraw s.draws) s) := rfl

@[simp] theorem exec_decode (s : State) : exec .decode s = .next (decodeWith Config.cipher s) := rfl

@[simp] theorem exec_qPush (q : QueueId) (hp : Bool) (kind : Nat) (handle len : Byte) (s : State) :
    exec (.qPush q hp kind handle len) s = execQPush q hp kind handle len s := rfl

@[simp] theorem exec_qPop (q : QueueId) (s : State) : exec (.qPop q) s = .next (takeEvent 0x21 q s) := rfl

@[simp] theorem exec_arbNext (s : State) : exec .arbNext s = execArbNext s := rfl

/-- CRC_COMPUTE reports, whatever the range (R175). -/
theorem execCrcCompute_reports (ps : PolySel) (off len : Nat) (s : State) :
    ∃ code v, execCrcCompute ps off len s = .next (s.report 0x01 code v) := by
  unfold execCrcCompute
  split_ifs
  · exact ⟨_, _, rfl⟩
  · exact ⟨_, _, rfl⟩

/-- FRAME_SIZE reports, whatever the type and the length (R120). -/
theorem execFrameSize_reports (type len : Nat) (s : State) :
    ∃ code v, execFrameSize type len s = .next (s.report 0x10 code v) := by
  unfold execFrameSize
  cases frameTypeOf type with
  | none => exact ⟨_, _, rfl⟩
  | some t =>
    cases t with
    | ack => exact ⟨_, _, rfl⟩
    | standard =>
      dsimp only
      split_ifs
      · exact ⟨_, _, rfl⟩
      · exact ⟨_, _, rfl⟩

/-- ARB_NEXT takes an event from one of the queues, or clears EVT_OUT and reports EMPTY (R203). -/
theorem execArbNext_cases (s : State) :
    (∃ q, execArbNext s = .next (takeEvent 0x22 q s)) ∨
    execArbNext s = .next ((s.setEvtOut evtOutNone).report 0x22 .empty 0) := by
  unfold execArbNext
  cases arbiterChoice s with
  | none => exact .inr rfl
  | some q => exact .inl ⟨q, rfl⟩

/-! ### The effects -/

/-- The commands that take an event out of a queue: Q_POP and ARB_NEXT (R199, R203). -/
def takesEvent : Instr → Bool
  | .qPop _ => true
  | .arbNext => true
  | _ => false

theorem takesEvent_iff (i : Instr) : takesEvent i = true ↔ (∃ q, i = .qPop q) ∨ i = .arbNext := by
  cases i <;> simp [takesEvent]

/-- `CmdEffect i s t`: the command `i` may take the state from `s` to `t`. -/
inductive CmdEffect (s : State) : Instr → State → Prop where
  /-- RESULT alone is written. -/
  | reports (i : Instr) (code : ResultCode) (v : Half) : CmdEffect s i (s.report i.opcode code v)
  /-- ENCODE has sealed the frame of its message (R131). -/
  | seals {ft : FrameType} {n : Nat} (checks : encodeChecks s = .ok (ft, n)) (c : Cipher) (nonce : Half) :
    CmdEffect s .encode
      { s with
        buf := crypt (frameKeystream c s nonce) (frameBytes ft n) (buildPlain ft n nonce s.msgAddr s.buf)
        frameLen := BitVec.ofNat 8 (frameBytes ft n)
        msgHdr := { s.msgHdr with nonce := nonce }
        draws := s.draws + 1
        result := ⟨.ok, 0x11, BitVec.ofNat 16 (frameBytes ft n)⟩ }
  /-- DECODE has decrypted the frame and refused it (R145). -/
  | opensInVain (ks : Nat → Byte) {code : ResultCode} (hcode : code = .crc ∨ code = .notForMe) :
    CmdEffect s .decode ((s.setBuf (crypt ks s.frameLen.toNat s.buf)).report 0x12 code 0)
  /-- DECODE has decrypted the frame and stored its message (R142). -/
  | opens (ks : Nat → Byte) (h : MsgHdr) (a : MsgAddr) (v : Half) :
    CmdEffect s .decode
      { s with buf := crypt ks s.frameLen.toNat s.buf, msgHdr := h, msgAddr := a, result := ⟨.ok, 0x12, v⟩ }
  /-- Q_PUSH has appended an event of an allowed kind (R195). -/
  | pushes (q : QueueId) (hp : Bool) {kind : Nat} (handle len : Byte) (x : Queue) (hkind : kind < 13)
    (hx : x.content = (s.queue q).content ++ [⟨BitVec.ofNat 4 kind, hp, handle, len⟩]) :
    CmdEffect s (.qPush q hp kind handle len) ((s.setQueue q x).report 0x20 .ok (BitVec.ofNat 16 x.content.length))
  /-- Q_POP or ARB_NEXT has found no event and cleared EVT_OUT (R37). -/
  | takesNothing {i : Instr} (hi : takesEvent i = true) :
    CmdEffect s i ((s.setEvtOut evtOutNone).report i.opcode .empty 0)
  /-- Q_POP or ARB_NEXT has moved the oldest event of a queue to EVT_OUT (R199, R203). -/
  | takes {i : Instr} (hi : takesEvent i = true) (q : QueueId) (e : Event) (x : Queue)
    (hx : (s.queue q).content = e :: x.content) :
    CmdEffect s i
      (((s.setQueue q x).setEvtOut (evtOutOf q e)).report i.opcode .ok (BitVec.ofNat 16 x.content.length))

/-- Taking an event is one of the last two effects. -/
theorem takeEvent_effect {i : Instr} (hi : takesEvent i = true) (q : QueueId) (s : State) :
    CmdEffect s i (takeEvent i.opcode q s) := by
  rcases takeEvent_spec i.opcode q s with ⟨_, e⟩ | ⟨ev, x, _, hx, e⟩
  · rw [e]; exact .takesNothing hi
  · rw [e]; exact .takes hi q ev x hx

theorem encodeWith_effect (c : Cipher) (nonce : Half) (s : State) : CmdEffect s .encode (encodeWith c nonce s) := by
  rcases encodeWith_cases c nonce s with ⟨code, _, _, e⟩ | ⟨ft, n, checks, e⟩
  · rw [e]; exact .reports .encode code 0
  · rw [e]; exact .seals checks c nonce

theorem decodeWith_effect (c : Cipher) (s : State) : CmdEffect s .decode (decodeWith c s) := by
  rcases decodeWith_cases c s with ⟨code, _, _, e⟩ | ⟨_, _, _, _, rfl, ⟨_, e⟩ | ⟨_, _, e⟩ | ⟨_, _, e⟩⟩
  · rw [e]; exact .reports .decode code 0
  · rw [e]; exact .opensInVain _ (.inl rfl)
  · rw [e]; exact .opensInVain _ (.inr rfl)
  · rw [e]; exact .opens _ _ _ _

/-- Every command completes, in every state, with one of the effects (R222). -/
theorem exec_effect (i : Instr) (s : State) : ∃ t, exec i s = .next t ∧ CmdEffect s i t := by
  cases i with
  | crcCompute ps off len =>
    obtain ⟨code, v, e⟩ := execCrcCompute_reports ps off len s
    exact ⟨_, e, .reports (.crcCompute ps off len) code v⟩
  | frameSize type len =>
    obtain ⟨code, v, e⟩ := execFrameSize_reports type len s
    exact ⟨_, e, .reports (.frameSize type len) code v⟩
  | encode => exact ⟨_, rfl, encodeWith_effect _ _ s⟩
  | decode => exact ⟨_, rfl, decodeWith_effect _ s⟩
  | qPush q hp kind handle len =>
    rcases execQPush_cases q hp kind handle len s with ⟨_, e⟩ | ⟨_, _, e⟩ | ⟨hk, _, x, hx, e⟩
    · exact ⟨_, e, .reports (.qPush q hp kind handle len) .kind 0⟩
    · exact ⟨_, e, .reports (.qPush q hp kind handle len) .full 0⟩
    · exact ⟨_, e, .pushes q hp handle len x hk hx⟩
  | qPop q => exact ⟨_, rfl, takeEvent_effect (i := .qPop q) rfl q s⟩
  | arbNext =>
    rcases execArbNext_cases s with ⟨q, e⟩ | e
    · exact ⟨_, e, takeEvent_effect (i := .arbNext) rfl q s⟩
    · exact ⟨_, e, .takesNothing (i := .arbNext) rfl⟩

/-- What a command did is one of its effects. -/
theorem effect_of_exec {i : Instr} {s t : State} (h : exec i s = .next t) : CmdEffect s i t := by
  obtain ⟨u, hu, he⟩ := exec_effect i s
  rw [h] at hu
  cases hu
  exact he

/-- Every command leaves its opcode in RESULT.OP (R23). -/
theorem CmdEffect.result_op {i : Instr} {s t : State} (h : CmdEffect s i t) : t.result.op = i.opcode := by
  cases h <;> rfl

/-- Every command leaves VALUE 0 unless CODE is OK (R23). -/
theorem CmdEffect.value_zero {i : Instr} {s t : State} (h : CmdEffect s i t) (hne : t.result.code ≠ .ok) :
    t.result.value = 0 := by
  cases h with
  | reports i code v => exact if_neg hne
  | opensInVain ks hcode => exact if_neg hne
  | takesNothing hi => rfl
  | _ => exact absurd rfl hne

theorem State.queue_ignores_result (s : State) (r : Result) (q : QueueId) :
    ({ s with result := r } : State).queue q = s.queue q := by
  cases q <;> rfl

theorem takeEvent_ignores_result (op : Byte) (q : QueueId) (s : State) (r : Result) :
    takeEvent op q { s with result := r } = takeEvent op q s := by
  simp only [takeEvent, State.queue_ignores_result]
  cases (s.queue q).pop with
  | none => rfl
  | some p => cases q <;> rfl

/-- No command reads RESULT (10_state.md R24). -/
theorem exec_ignores_result (i : Instr) (s : State) (r : Result) : exec i { s with result := r } = exec i s := by
  cases i with
  | crcCompute ps off len => simp only [exec_crcCompute, execCrcCompute]; split_ifs <;> rfl
  | frameSize type len => rfl
  | encode =>
    have hc : encodeChecks { s with result := r } = encodeChecks s := rfl
    simp only [exec_encode, encodeWith, hc]
    cases encodeChecks s <;> rfl
  | decode =>
    have hc : decodeChecks { s with result := r } = decodeChecks s := rfl
    simp only [exec_decode, decodeWith, hc]
    cases decodeChecks s <;> rfl
  | qPush q hp kind handle len =>
    simp only [exec_qPush, execQPush, State.queue_ignores_result]
    cases q <;> rfl
  | qPop q => simp only [exec_qPop, takeEvent_ignores_result]
  | arbNext =>
    have hc : arbiterChoice { s with result := r } = arbiterChoice s := rfl
    simp only [exec_arbNext, execArbNext, hc, takeEvent_ignores_result]
    rfl

/-! ### A word written to CMD (10_state.md R22) -/

/-- The word of a command carries the command's opcode in its low byte (R90). -/
theorem opByte_of_decodeWord {w : Word} {i : Instr} (h : decodeWord w = .ok i) : opByte w = i.opcode := by
  rcases decodeWord_cases w with ⟨r, hr, hs, hd⟩ | ⟨_, e, hd⟩
  · rw [h] at hd
    cases hd
    rw [opByte_of_selects hr hs]
    simp only [opRows, List.mem_cons, List.not_mem_nil, or_false] at hr
    rcases hr with rfl | rfl | rfl | rfl | rfl | rfl | rfl <;> rfl
  · rw [h] at hd
    cases hd

/-- A word that decodes executes its command; any other reports ILLEGAL (R95). -/
theorem execWord_cases (w : Word) (s : State) :
    (∃ i, decodeWord w = .ok i ∧ execWord w s = exec i s) ∨
    execWord w s = .next (s.report (opByte w) .illegal 0) := by
  unfold execWord
  cases decodeWord w with
  | ok i => exact .inl ⟨i, rfl, rfl⟩
  | error e => exact .inr rfl

/-- Whatever the word, its low byte is left in RESULT.OP, and 0 in VALUE unless CODE is OK (R23, R95). -/
theorem execWord_result (w : Word) (s : State) :
    ∃ t, execWord w s = .next t ∧ t.result.op = opByte w ∧ (t.result.code ≠ .ok → t.result.value = 0) := by
  rcases execWord_cases w s with ⟨i, hd, e⟩ | e
  · obtain ⟨t, ht, heff⟩ := exec_effect i s
    exact ⟨t, e.trans ht, heff.result_op.trans (opByte_of_decodeWord hd).symm, heff.value_zero⟩
  · exact ⟨_, e, rfl, fun _ => rfl⟩

theorem exec_smState {i : Instr} {s t : State} (h : exec i s = .next t) : t.smState = s.smState := by
  rw [exec_frame h]

theorem execWord_smState {w : Word} {s t : State} (h : execWord w s = .next t) : t.smState = s.smState := by
  rcases execWord_cases w s with ⟨i, _, e⟩ | e
  · exact exec_smState (e.symm.trans h)
  · rw [e] at h
    cases h
    rfl

/-! ### A write to any other register (20_memory.md R62, R64) -/

/-- A register write outside CMD leaves RESULT, EVT_OUT, the queues, FRAME_BUF and the port alone. -/
theorem writeReg_frame {r : Reg} {w : Word} {s t : State} (hr : r ≠ .cmd) (h : writeReg r w s = .next t) :
    t =
      { s with
        smState := t.smState
        cfgId := t.cfgId
        key := t.key
        crcSeed := t.crcSeed
        frameLen := t.frameLen
        msgHdr := t.msgHdr
        msgAddr := t.msgAddr } := by
  cases r with
  | cmd => exact absurd rfl hr
  | _ => cases h; rfl

theorem writeReg_smState {r : Reg} {w : Word} {s t : State} (hr : r ≠ .smState) (h : writeReg r w s = .next t) :
    t.smState = s.smState := by
  cases r with
  | cmd => exact execWord_smState h
  | smState => exact absurd rfl hr
  | _ => cases h; rfl

end Sys2Proof.Machine
end

section
/-! PROOF. The invariant of the state (10_state.md R23, R36, R37; 43_event_queues.md R195): each update of the state
keeps it, so every command and every step does. -/

namespace Sys2Proof.Machine

open Sys2Proof

theorem Queue.kindsOk_of_content_append {q x : Queue} {e : Event} (hx : x.content = q.content ++ [e])
    (hq : q.kindsOk) (he : e.kind.toNat < 13) : x.kindsOk := by
  intro e' hmem
  rw [hx, List.mem_append, List.mem_singleton] at hmem
  rcases hmem with hmem | rfl
  · exact hq e' hmem
  · exact he

theorem Queue.kindsOk_of_content_cons {q x : Queue} {e : Event} (hq : q.content = e :: x.content)
    (h : q.kindsOk) : x.kindsOk :=
  fun e' hmem => h e' (hq ▸ List.mem_cons_of_mem e hmem)

theorem Queue.kindsOk_reset : Queue.reset.kindsOk := by
  intro e hmem
  cases hmem

@[simp] theorem evtOutOf_valid (q : QueueId) (e : Event) : (evtOutOf q e).valid = true := rfl

/-- EVT_OUT of a pop that found nothing reads 0 (R37). -/
@[simp] theorem evtOutWord_evtOutNone : evtOutWord evtOutNone = 0 := by decide

theorem State.inv_reset : State.reset.Inv :=
  ⟨reset_buf_wf, fun _ => rfl, Queue.kindsOk_reset, Queue.kindsOk_reset, fun _ => evtOutWord_evtOutNone⟩

/-- The reset input establishes the invariant, from whatever state. -/
theorem State.inv_resetBlock (s : State) : s.resetBlock.Inv :=
  ⟨rfl, inv_reset.valueZero, inv_reset.hotKinds, inv_reset.coldKinds, inv_reset.evtZero⟩

namespace State.Inv

variable {s : State}

theorem queue (h : s.Inv) (q : QueueId) : (s.queue q).kindsOk := by
  cases q
  · exact h.hotKinds
  · exact h.coldKinds

theorem report (h : s.Inv) (op : Byte) (code : ResultCode) (v : Half) : (s.report op code v).Inv :=
  ⟨h.bufWf, fun hne => if_neg hne, h.hotKinds, h.coldKinds, h.evtZero⟩

theorem setBuf (h : s.Inv) {m : Memory} (hm : m.wf = true) : (s.setBuf m).Inv :=
  ⟨hm, h.valueZero, h.hotKinds, h.coldKinds, h.evtZero⟩

theorem setEvtOut (h : s.Inv) {e : EvtOut} (he : e.valid = false → evtOutWord e = 0) : (s.setEvtOut e).Inv :=
  ⟨h.bufWf, h.valueZero, h.hotKinds, h.coldKinds, he⟩

theorem setQueue (h : s.Inv) (q : QueueId) {x : Queue} (hx : x.kindsOk) : (s.setQueue q x).Inv := by
  cases q
  · exact ⟨h.bufWf, h.valueZero, hx, h.coldKinds, h.evtZero⟩
  · exact ⟨h.bufWf, h.valueZero, h.hotKinds, hx, h.evtZero⟩

/-- The invariant does not speak of the port. -/
theorem port (h : s.Inv) (p : List PortEvent) (r : Response) : ({ s with pending := p, response := r } : State).Inv :=
  ⟨h.bufWf, h.valueZero, h.hotKinds, h.coldKinds, h.evtZero⟩

/-- Decrypting FRAME_BUF keeps the canonical form: FRAME_LEN is at most 255. -/
theorem crypt_frameLen_wf (h : s.Inv) (ks : Nat → Byte) : (crypt ks s.frameLen.toNat s.buf).wf = true :=
  crypt_wf ks s.frameLen.isLt.le h.bufWf

/-- Every command keeps the invariant. -/
theorem of_effect (h : s.Inv) {i : Instr} {t : State} (heff : CmdEffect s i t) : t.Inv := by
  cases heff with
  | reports i code v => exact h.report _ code v
  | @seals ft n checks c nonce =>
    obtain ⟨_, _, hn, _⟩ := encodeChecks_ok checks
    have hsize : frameBytes ft n ≤ Params.bufSize := (frameBytes_bounds hn).2.trans (by decide)
    exact ⟨crypt_wf _ hsize (buildPlain_wf nonce s.msgAddr hn h.bufWf), fun hne => absurd rfl hne, h.hotKinds,
      h.coldKinds, h.evtZero⟩
  | opensInVain ks hcode => exact (h.setBuf (h.crypt_frameLen_wf ks)).report _ _ _
  | opens ks hdr a v =>
    exact ⟨h.crypt_frameLen_wf ks, fun hne => absurd rfl hne, h.hotKinds, h.coldKinds, h.evtZero⟩
  | @pushes q hp kind handle len x hkind hx =>
    have hx' : x.kindsOk := by
      refine Queue.kindsOk_of_content_append hx (h.queue q) ?_
      rw [BitVec.toNat_ofNat]
      omega
    exact (h.setQueue q hx').report _ _ _
  | takesNothing hi => exact (h.setEvtOut fun _ => evtOutWord_evtOutNone).report _ _ _
  | takes hi q e x hx =>
    have hx' : x.kindsOk := Queue.kindsOk_of_content_cons hx (h.queue q)
    exact ((h.setQueue q hx').setEvtOut fun hf => absurd hf (by simp)).report _ _ _

theorem of_execWord (h : s.Inv) {w : Word} {t : State} (ht : execWord w s = .next t) : t.Inv := by
  rcases execWord_cases w s with ⟨i, _, e⟩ | e
  · exact h.of_effect (effect_of_exec (e.symm.trans ht))
  · rw [e] at ht
    cases ht
    exact h.report _ _ _

/-- Every register write keeps the invariant: CMD by its command, the others leave what it speaks of alone. -/
theorem of_writeReg (h : s.Inv) {r : Reg} {w : Word} {t : State} (ht : writeReg r w s = .next t) : t.Inv := by
  by_cases hr : r = .cmd
  · subst hr
    exact h.of_execWord ht
  · rw [writeReg_frame hr ht]
    exact ⟨h.bufWf, h.valueZero, h.hotKinds, h.coldKinds, h.evtZero⟩

end State.Inv

/-- Settles O13: a step is idle, a reset, a read, a register's write or a byte's, and each keeps the invariant. -/
theorem stepKeepsTheInvariant : Obligations.StepKeepsTheInvariant := by
  intro s t h hstep
  rcases step_cases hstep with ⟨_, rfl⟩ | ⟨_, _, rfl⟩ | ⟨_, _, _, _, _, rfl⟩ | ⟨r, w, rest, _, hw⟩ |
    ⟨i, w, rest, hi, _, rfl⟩
  · exact h
  · exact State.inv_resetBlock _
  · exact h.port _ _
  · exact (h.port rest .done).of_writeReg hw
  · exact (h.port rest .done).setBuf (Memory.wf_write _ hi h.bufWf)

end Sys2Proof.Machine
end

section
/-! PROOF. STATUS as a number, its fields and bits (10_state.md R25). -/

namespace Sys2Proof.Machine

open Sys2Proof

/-- STATUS is the sum of its fields at their places. -/
theorem statusWord_toNat (s : State) :
    (statusWord s).toNat =
      s.hotq.count.val + 2 ^ 8 * s.coldq.count.val
        + 2 ^ 16 * (decide (s.hotq.count.val = 0)).toNat + 2 ^ 17 * (decide (s.hotq.count.val = 16)).toNat
        + 2 ^ 18 * (decide (s.coldq.count.val = 0)).toNat + 2 ^ 19 * (decide (s.coldq.count.val = 16)).toNat
        + 2 ^ 20 * s.eligible.toNat := by
  simp only [statusWord, toNat_fields, BitVec.toNat_ofNat, BitVec.toNat_ofBool]
  omega

/-- ELIGIBLE: a hot event, or in Idle a cold one (R25). -/
theorem State.eligible_iff (s : State) :
    s.eligible = true ↔ s.hotq.count.val > 0 ∨ (s.smState = 0 ∧ s.coldq.count.val > 0) := by
  simp [State.eligible]

/-- Bit `k` of a word as a digit of its number. -/
theorem getLsbD_iff_toNat (w : Word) (k : Nat) : w.getLsbD k = true ↔ w.toNat / 2 ^ k % 2 = 1 := by
  rw [BitVec.getLsbD, Nat.testBit_eq_decide_div_mod_eq, decide_eq_true_iff]

/-- The field of `n` bits from bit `k` on as digits of the word's number. -/
theorem extractLsb'_toNat_eq (w : Word) (k n : Nat) : (w.extractLsb' k n).toNat = w.toNat / 2 ^ k % 2 ^ n := by
  rw [BitVec.extractLsb'_toNat, Nat.shiftRight_eq_div_pow]

/-- The digits of STATUS: counts and reserved fields, then the conditions bit by bit. -/
theorem statusWord_digits (s : State) :
    ((statusWord s).toNat / 2 ^ 0 % 2 ^ 5 = s.hotq.count.val ∧ (statusWord s).toNat / 2 ^ 5 % 2 ^ 3 = 0 ∧
      (statusWord s).toNat / 2 ^ 8 % 2 ^ 5 = s.coldq.count.val ∧ (statusWord s).toNat / 2 ^ 13 % 2 ^ 3 = 0 ∧
      (statusWord s).toNat / 2 ^ 21 % 2 ^ 11 = 0) ∧
    ((statusWord s).toNat / 2 ^ 16 % 2 = (decide (s.hotq.count.val = 0)).toNat ∧
      (statusWord s).toNat / 2 ^ 17 % 2 = (decide (s.hotq.count.val = 16)).toNat ∧
      (statusWord s).toNat / 2 ^ 18 % 2 = (decide (s.coldq.count.val = 0)).toNat ∧
      (statusWord s).toNat / 2 ^ 19 % 2 = (decide (s.coldq.count.val = 16)).toNat ∧
      (statusWord s).toNat / 2 ^ 20 % 2 = s.eligible.toNat) := by
  have := Bool.toNat_le s.eligible
  have := Bool.toNat_le (decide (s.hotq.count.val = 0))
  have := Bool.toNat_le (decide (s.hotq.count.val = 16))
  have := Bool.toNat_le (decide (s.coldq.count.val = 0))
  have := Bool.toNat_le (decide (s.coldq.count.val = 16))
  rw [statusWord_toNat]
  refine ⟨⟨?_, ?_, ?_, ?_, ?_⟩, ?_, ?_, ?_, ?_, ?_⟩ <;> omega

/-- The counts in STATUS, and its reserved bits (R25). -/
theorem statusWord_fields (s : State) :
    ((statusWord s).extractLsb' 0 5).toNat = s.hotq.count.val ∧ (statusWord s).extractLsb' 5 3 = 0 ∧
    ((statusWord s).extractLsb' 8 5).toNat = s.coldq.count.val ∧ (statusWord s).extractLsb' 13 3 = 0 ∧
    (statusWord s).extractLsb' 21 11 = 0 := by
  simp only [← BitVec.toNat_inj, extractLsb'_toNat_eq]
  exact (statusWord_digits s).1

/-- The conditions in STATUS (R25). -/
theorem statusWord_bits (s : State) :
    ((statusWord s).getLsbD 16 = true ↔ s.hotq.count.val = 0) ∧
    ((statusWord s).getLsbD 17 = true ↔ s.hotq.count.val = 16) ∧
    ((statusWord s).getLsbD 18 = true ↔ s.coldq.count.val = 0) ∧
    ((statusWord s).getLsbD 19 = true ↔ s.coldq.count.val = 16) ∧
    ((statusWord s).getLsbD 20 = true ↔ s.eligible = true) := by
  obtain ⟨-, h16, h17, h18, h19, h20⟩ := statusWord_digits s
  simp only [getLsbD_iff_toNat, h16, h17, h18, h19, h20, Bool.toNat_eq_one, decide_eq_true_iff, and_self]

end Sys2Proof.Machine
end

section
/-! PROOF. The statements of 10_state.md: the port, STATUS, and who writes what. -/

namespace Sys2Proof.Machine

open Sys2Proof

/-! ### The port -/

/-- Settles O6: CMD is the register at offset 0, and its write executes the decoded word. -/
theorem stepRunsTheDecodedCommand : Obligations.StepRunsTheDecodedCommand := by
  intro s w rest i hpend hdec _
  rw [step_writeReg (r := .cmd) hpend]
  simp only [writeReg, execWord, hdec]

/-- Settles O19: the write of each of the three registers stores nothing. -/
theorem writesToReadOnlyRegistersAreIgnored : Obligations.WritesToReadOnlyRegistersAreIgnored := by
  intro s r w rest hr hpend
  rw [step_writeReg hpend]
  rcases hr with rfl | rfl | rfl <;> rfl

/-- Settles O22: the fields and bits of STATUS as a number, with the counts as the lengths of the queues' contents. -/
theorem statusShowsQueuesAndEligibility : Obligations.StatusShowsQueuesAndEligibility := by
  refine ⟨fun s => ?_, by decide, fun s w rest hpend => step_writeReg (r := .status) hpend⟩
  obtain ⟨hot, res5, cold, res13, res21⟩ := statusWord_fields s
  obtain ⟨b16, b17, b18, b19, b20⟩ := statusWord_bits s
  simp only [readReg, Queue.content_length]
  exact ⟨hot, res5, cold, res13, b16, b17, b18, b19, b20.trans s.eligible_iff, res21⟩

/-! ### Who writes what -/

/-- What is neither the port's nor FRAME_BUF's changes in a step by a reset or a register's write alone. -/
theorem step_changes {α : Type} {s t : State} (f : State → α)
    (hf : ∀ (u : State) (p : List PortEvent) (v : Response) (m : Memory),
      f { u with pending := p, response := v, buf := m } = f u)
    (hstep : step s = .next t) (hne : f t ≠ f s) :
    (∃ rest, s.pending = .reset :: rest) ∨
    ∃ r w rest, s.pending = .write (Reg.offset r) 4 w :: rest ∧
      writeReg r w { s with pending := rest, response := .done } = .next t := by
  rcases step_cases hstep with ⟨_, rfl⟩ | ⟨rest, hreset, _⟩ | ⟨_, _, rest, v, _, rfl⟩ | hw | ⟨_, _, rest, _, _, rfl⟩
  · exact absurd rfl hne
  · exact .inl ⟨rest, hreset⟩
  · exact absurd (hf s rest v s.buf) hne
  · exact .inr hw
  · exact absurd (hf s rest .done _) hne

/-- Settles O23: of the register writes only that of SM_STATE stores a code, and no command does. -/
theorem onlyTheHostWritesSmState : Obligations.OnlyTheHostWritesSmState := by
  refine ⟨fun s t hstep hne => ?_, fun i s t => exec_smState, fun s w rest hpend => ?_⟩
  · rcases step_changes State.smState (fun _ _ _ _ => rfl) hstep hne with ⟨rest, hreset⟩ | ⟨r, w, rest, hpend, hw⟩
    · exact ⟨rest, .inl hreset⟩
    · by_cases hr : r = .smState
      · subst hr
        exact ⟨rest, .inr ⟨w, hpend⟩⟩
      · exact absurd (writeReg_smState hr hw) hne
  · exact step_writeReg (r := .smState) hpend

/-- Settles O24, from the frame of every command. -/
theorem commandsLeaveTheConfiguration : Obligations.CommandsLeaveTheConfiguration := by
  intro i s t h
  rw [exec_frame h]
  exact ⟨rfl, rfl, rfl, rfl, rfl, rfl⟩

/-- Settles O25: of the effects of a command three can end in a result other than OK. -/
theorem failingCommandsWriteOnlyResult : Obligations.FailingCommandsWriteOnlyResult := by
  intro i s t h hne
  cases effect_of_exec h with
  | reports i code v => exact .inl rfl
  | opensInVain ks hcode => exact .inr (.inl ⟨rfl, hcode, rfl⟩)
  | takesNothing hi => exact .inr (.inr ⟨rfl, (takesEvent_iff i).mp hi, rfl, evtOutWord_evtOutNone⟩)
  | _ => exact absurd rfl hne

/-- Settles O26: a register write outside CMD leaves RESULT, and no command reads it. -/
theorem resultIsWrittenByCommandsAlone : Obligations.ResultIsWrittenByCommandsAlone := by
  refine ⟨fun s t hstep hne => ?_, exec_ignores_result⟩
  rcases step_changes State.result (fun _ _ _ _ => rfl) hstep hne with ⟨rest, hreset⟩ | ⟨r, w, rest, hpend, hw⟩
  · exact ⟨rest, .inl hreset⟩
  · by_cases hr : r = .cmd
    · subst hr
      exact ⟨rest, .inr ⟨w, hpend⟩⟩
    · exact absurd (congrArg State.result (writeReg_frame hr hw)) hne

/-- Settles O27: a write to CMD executes its word, and every word records its low byte. -/
theorem everyCommandWordRecordsItsOpcode : Obligations.EveryCommandWordRecordsItsOpcode := by
  intro s w rest hpend
  rw [step_writeReg (r := .cmd) hpend]
  exact execWord_result w _

/-! ### The frames of the commands -/

/-- Settles O34: both commands report and do nothing else. -/
theorem crcAndFrameSizeFrame : Obligations.CrcAndFrameSizeFrame := by
  intro i s t hi h
  obtain ⟨code, v, e⟩ : ∃ code v, exec i s = .next (s.report i.opcode code v) := by
    rcases hi with ⟨ps, off, len, rfl⟩ | ⟨type, len, rfl⟩
    · exact execCrcCompute_reports ps off len s
    · exact execFrameSize_reports type len s
  rw [e] at h
  cases h
  exact ⟨rfl, fun _ => rfl⟩

/-- Outside the frame it builds ENCODE leaves every byte of FRAME_BUF as it was (R131). -/
theorem crypt_buildPlain_read_outside (ks : Nat → Byte) (s : State) {ft : FrameType} {n a : Nat} (nonce : Half)
    (hn : n ≤ Params.maxPayload) (ha : frameBytes ft n ≤ a) :
    (crypt ks (frameBytes ft n) (buildPlain ft n nonce s.msgAddr s.buf)).read a = s.buf.read a := by
  rw [crypt_read, if_neg (by omega), buildPlain_read s nonce a hn, if_neg (by omega)]

/-- Settles O38: ENCODE reports, or seals a frame that ends below FRAME_LEN. -/
theorem encodeFrame : Obligations.EncodeFrame := by
  intro s t h
  cases effect_of_exec h with
  | reports _ code v => exact ⟨rfl, fun _ _ => rfl⟩
  | @seals ft n checks c nonce =>
    refine ⟨rfl, fun a ha => ?_⟩
    obtain ⟨_, _, hn, _⟩ := encodeChecks_ok checks
    have hlen : (BitVec.ofNat 8 (frameBytes ft n)).toNat = frameBytes ft n := by
      have hb := (frameBytes_bounds (t := ft) hn).2
      rw [BitVec.toNat_ofNat]
      omega
    exact crypt_buildPlain_read_outside _ s nonce hn (hlen ▸ ha.resolve_left (not_not_intro rfl))
  | takesNothing hi => cases hi
  | takes hi => cases hi

/-- Outside bytes 6 to L-1 `crypt` leaves every byte as it was (R127). -/
theorem crypt_read_outside (ks : Nat → Byte) {size a : Nat} (m : Memory) (ha : a < 6 ∨ size ≤ a) :
    (crypt ks size m).read a = m.read a := by
  rw [crypt_read, if_neg (by omega)]

/-- Settles O43: DECODE reports, or decrypts bytes 6 to FRAME_LEN-1 and on OK alone stores the message. -/
theorem decodeFrame : Obligations.DecodeFrame := by
  intro s t h
  cases effect_of_exec h with
  | reports _ code v => exact ⟨rfl, fun _ => ⟨rfl, rfl⟩, fun _ _ => rfl⟩
  | opensInVain ks hcode => exact ⟨rfl, fun _ => ⟨rfl, rfl⟩, fun a => crypt_read_outside ks s.buf⟩
  | opens ks hdr addr v => exact ⟨rfl, fun hne => absurd rfl hne, fun a => crypt_read_outside ks s.buf⟩
  | takesNothing hi => cases hi
  | takes hi => cases hi

/-- Settles O52: a queue command reports, or changes the queue it serves, or EVT_OUT, or both. -/
theorem queueCommandsFrame : Obligations.QueueCommandsFrame := by
  intro i s t hi h
  cases effect_of_exec h with
  | reports i code v => exact ⟨rfl, fun _ => rfl, .inl rfl, fun _ _ _ _ _ _ => rfl⟩
  | seals => simp at hi
  | opensInVain => simp at hi
  | opens => simp at hi
  | pushes q hp handle len x hkind hx =>
    cases q
    · exact ⟨rfl, fun _ => rfl, .inr rfl, fun _ _ _ _ _ _ => rfl⟩
    · exact ⟨rfl, fun _ => rfl, .inl rfl, fun _ _ _ _ _ _ => rfl⟩
  | takesNothing htake =>
    exact ⟨rfl, fun _ => rfl, .inl rfl, fun _ _ _ _ _ e => by subst e; cases htake⟩
  | takes htake q e x hx =>
    cases q
    · exact ⟨rfl, fun _ => rfl, .inr rfl, fun _ _ _ _ _ e => by subst e; cases htake⟩
    · exact ⟨rfl, fun _ => rfl, .inl rfl, fun _ _ _ _ _ e => by subst e; cases htake⟩

end Sys2Proof.Machine
end

section
/-! PROOF. An access at the port (20_memory.md R61, R62): refused outside the window, BusError where R62 does not list
it, and otherwise completed, whatever waits behind it. -/

namespace Sys2Proof.Machine

open Sys2Proof

/-! ### Which accesses are legal -/

/-- The accesses that name a register or a byte are those R62 lists. -/
theorem target_isSome_iff (off n : Nat) : (target off n).isSome = true ↔ legalAccess off n := by
  unfold target legalAccess
  by_cases h4 : n = 4
  · simp [h4, regAt_isSome_iff]
  · by_cases h1 : n = 1 ∧ 0x100 ≤ off ∧ off < Params.windowSize
    · simp [h1]
    · simp [h4, h1]

/-- An access that names nothing is not legal. -/
theorem target_eq_none_iff (off n : Nat) : target off n = none ↔ ¬ legalAccess off n := by
  rw [← target_isSome_iff, Option.not_isSome_iff_eq_none]

/-- A legal access lies inside the window. -/
theorem lt_windowSize_of_target {off n : Nat} {x : Target} (h : target off n = some x) : off < Params.windowSize := by
  have hw : Params.windowSize = 0x200 := rfl
  have hlegal : legalAccess off n := (target_isSome_iff off n).mp (h ▸ rfl)
  rcases hlegal with ⟨_, _, _⟩ | ⟨_, _, _⟩
  · omega
  · omega

theorem target_offset (r : Reg) : target r.offset 4 = some (.reg r) := by
  simp [target, regAt_offset]

theorem target_bufOffset {i : Nat} (hi : i < 256) : target (0x100 + i) 1 = some (.byte i) := by
  have hw : 0x100 + i < Params.windowSize := by
    have : Params.windowSize = 0x200 := rfl
    omega
  simp [target, hw]

/-- An access that names a register stands at the register's offset. -/
theorem offset_of_target {off n : Nat} {r : Reg} (h : target off n = some (.reg r)) : off = r.offset := by
  unfold target at h
  split_ifs at h
  · obtain ⟨r', hr', e⟩ := Option.map_eq_some_iff.mp h
    cases e
    exact offset_of_regAt hr'
  · cases h

/-! ### What a legal access does -/

/-- A legal read answers with the register's word or the byte, and does nothing else (R62, R64). -/
theorem perform_read {off n : Nat} {x : Target} (h : target off n = some x) (s : State) :
    perform (.read off n) s = .next { s with response := .data n (readTarget s x) } := by
  have hlt := lt_windowSize_of_target h
  simp only [perform, busRead, h, if_neg (not_le.mpr hlt)]

/-- A legal write does what its register or byte does with the word (R62). -/
theorem perform_write {off n : Nat} {x : Target} (h : target off n = some x) (w : Word) (s : State) :
    perform (.write off n w) s = writeTarget x w { s with response := .done } := by
  have hlt := lt_windowSize_of_target h
  simp only [perform, busWrite, h, if_neg (not_le.mpr hlt)]

/-- A write that completed named a register or a byte. -/
theorem target_of_perform_write {off n : Nat} {w : Word} {s t : State} (h : perform (.write off n w) s = .next t) :
    ∃ x, target off n = some x ∧ writeTarget x w { s with response := .done } = .next t := by
  cases hx : target off n with
  | some x => exact ⟨x, rfl, (perform_write hx w s).symm.trans h⟩
  | none =>
    simp only [perform, busWrite, hx] at h
    split_ifs at h

/-! ### What any access does -/

/-- The offset and width of an access; the reset input is none. -/
def PortEvent.access : PortEvent → Option (Nat × Nat)
  | .read off n => some (off, n)
  | .write off n _ => some (off, n)
  | .reset => none

/-- An access at offset 0x200 or above is refused by name. -/
theorem perform_outside {e : PortEvent} {off n : Nat} (he : e.access = some (off, n)) (h : 0x200 ≤ off) (s : State) :
    perform e s = .refused (.outsideWindow off) := by
  cases e with
  | read => cases he; exact if_pos h
  | write => cases he; exact if_pos h
  | reset => cases he

/-- Inside the window an access that names nothing is a bus error (R61, R221). -/
theorem perform_illegal {e : PortEvent} {off n : Nat} (he : e.access = some (off, n)) (hlt : off < 0x200)
    (h : target off n = none) (s : State) : perform e s = .fault (.busError off) := by
  have hin : ¬ off ≥ Params.windowSize := not_le.mpr hlt
  cases e with
  | read => cases he; simp only [perform, busRead, h, if_neg hin]
  | write => cases he; simp only [perform, busWrite, h, if_neg hin]
  | reset => cases he

/-- The operation completes, and does the same whatever waits at the port. -/
def CompletesWhateverWaits (f : State → Host.Outcome State Fault Refusal) (s : State) : Prop :=
  ∃ t : State, f s = .next t ∧ ∀ p, f { s with pending := p } = .next { t with pending := p }

theorem CompletesWhateverWaits.completes {f : State → Host.Outcome State Fault Refusal} {s : State}
    (h : CompletesWhateverWaits f s) : ∃ t, f s = .next t := by
  obtain ⟨t, ht, _⟩ := h
  exact ⟨t, ht⟩

theorem exec_completes (i : Instr) (s : State) : CompletesWhateverWaits (exec i) s := by
  obtain ⟨t, ht, _⟩ := exec_effect i s
  refine ⟨t, ht, fun p => ?_⟩
  obtain ⟨u, hu, hp⟩ := exec_pending i s p
  rw [ht] at hu
  cases hu
  exact hp

/-- A word written to CMD completes, be it a command or not (R95, R222). -/
theorem execWord_completes (w : Word) (s : State) : CompletesWhateverWaits (execWord w) s := by
  cases hd : decodeWord w with
  | ok i =>
    have hexec : execWord w = exec i := by funext u; simp only [execWord, hd]
    rw [hexec]
    exact exec_completes i s
  | error _ =>
    have hill : execWord w = fun u => .next (execIllegal w u) := by funext u; simp only [execWord, hd]
    rw [hill]
    exact ⟨_, rfl, fun _ => rfl⟩

theorem writeReg_completes (r : Reg) (w : Word) (s : State) : CompletesWhateverWaits (writeReg r w) s := by
  cases r with
  | cmd => exact execWord_completes w s
  | _ => exact ⟨_, rfl, fun _ => rfl⟩

theorem writeTarget_completes (x : Target) (w : Word) (s : State) : CompletesWhateverWaits (writeTarget x w) s := by
  cases x with
  | reg r => exact writeReg_completes r w s
  | byte i => exact ⟨_, rfl, fun _ => rfl⟩

/-- No register shows the port. -/
theorem readReg_port (s : State) (p : List PortEvent) (v : Response) (r : Reg) :
    readReg { s with pending := p, response := v } r = readReg s r := by
  cases r <;> rfl

/-- What a read answers does not depend on what waits at the port. -/
theorem readTarget_pending (s : State) (p : List PortEvent) (x : Target) :
    readTarget { s with pending := p } x = readTarget s x := by
  cases x with
  | reg r => exact readReg_port s p s.response r
  | byte i => rfl

/-- A legal access completes (R222). -/
theorem perform_completes {e : PortEvent} {off n : Nat} {x : Target} (he : e.access = some (off, n))
    (h : target off n = some x) (s : State) : CompletesWhateverWaits (perform e) s := by
  cases e with
  | read =>
    cases he
    exact ⟨_, perform_read h s, fun p => by rw [perform_read h, readTarget_pending]⟩
  | write _ _ w =>
    cases he
    obtain ⟨t, ht, hp⟩ := writeTarget_completes x w { s with response := .done }
    exact ⟨t, (perform_write h w s).trans ht, fun p => (perform_write h w _).trans (hp p)⟩
  | reset => cases he

theorem perform_reset_completes (s : State) : CompletesWhateverWaits (perform .reset) s :=
  ⟨_, rfl, fun _ => rfl⟩

/-- The three ends of an event; what waits behind it decides neither which it is nor what it does. -/
theorem perform_cases (e : PortEvent) (s : State) :
    CompletesWhateverWaits (perform e) s ∨
    (∃ r, ∀ p, perform e { s with pending := p } = .fault r) ∨
    (∃ r, ∀ p, perform e { s with pending := p } = .refused r) := by
  cases he : e.access with
  | none =>
    cases e with
    | reset => exact .inl (perform_reset_completes s)
    | _ => cases he
  | some a =>
    obtain ⟨off, n⟩ := a
    by_cases hlt : off < 0x200
    · cases hx : target off n with
      | some x => exact .inl (perform_completes he hx s)
      | none => exact .inr (.inl ⟨_, fun p => perform_illegal he hlt hx _⟩)
    · exact .inr (.inr ⟨_, fun p => perform_outside he (not_lt.mp hlt) _⟩)

/-! ### The statements -/

/-- Settles O8, by induction on the waiting events: each ends the same way whatever waits behind it. -/
theorem portPerformsEventsInOrder : Obligations.PortPerformsEventsInOrder := by
  intro es more
  induction es with
  | nil => exact fun s => rfl
  | cons e es ih =>
    intro s
    have hstep : Sys2Proof.core.step { s with pending := e :: es ++ more } =
        perform e { s with pending := es ++ more } := rfl
    simp only [List.length_cons, Host.Core.run, performAll, hstep]
    rcases perform_cases e s with ⟨t, _, ht⟩ | ⟨r, hr⟩ | ⟨r, hr⟩
    · rw [ht, ht]
      exact ih t
    · rw [hr, hr]
      rfl
    · rw [hr, hr]
      rfl

/-- Inside the window an access is a bus error exactly when R62 does not list it. -/
theorem step_busError_iff {s : State} {e : PortEvent} {rest : List PortEvent} {off n : Nat}
    (hpend : s.pending = e :: rest) (he : e.access = some (off, n)) (hlt : off < 0x200) :
    step s = .fault (.busError off) ↔ ¬ legalAccess off n := by
  rw [step_event hpend, ← target_eq_none_iff]
  cases hx : target off n with
  | none => simp only [perform_illegal he hlt hx]
  | some x =>
    obtain ⟨t, ht⟩ := (perform_completes he hx { s with pending := rest }).completes
    rw [ht]
    constructor <;> intro h <;> cases h

/-- Settles O14, for a read and for a write by the same lemma. -/
theorem busErrorExactlyOnIllegalAccess : Obligations.BusErrorExactlyOnIllegalAccess :=
  ⟨fun _ _ _ _ hpend hlt => step_busError_iff hpend rfl hlt,
    fun _ _ _ _ _ hpend hlt => step_busError_iff hpend rfl hlt⟩

/-- Settles O15, for a read and for a write by the same lemma. -/
theorem accessOutsideTheWindowIsRefused : Obligations.AccessOutsideTheWindowIsRefused :=
  ⟨fun _ _ _ _ hpend hout => (step_event hpend).trans (perform_outside rfl hout _),
    fun _ _ _ _ _ hpend hout => (step_event hpend).trans (perform_outside rfl hout _)⟩

/-- A legal access names a register or a byte, so it completes. -/
theorem perform_completes_of_legal {e : PortEvent} {off n : Nat} (he : e.access = some (off, n))
    (h : legalAccess off n) (s : State) : CompletesWhateverWaits (perform e) s := by
  obtain ⟨x, hx⟩ := Option.isSome_iff_exists.mp ((target_isSome_iff off n).mpr h)
  exact perform_completes he hx s

/-- Settles O16: a legal access completes, and so does the reset input. -/
theorem legalEventsComplete : Obligations.LegalEventsComplete := by
  intro s e rest hpend hlegal
  rw [step_event hpend]
  cases e with
  | read off n => exact (perform_completes_of_legal rfl hlegal _).completes
  | write off n w => exact (perform_completes_of_legal rfl hlegal _).completes
  | reset => exact (perform_reset_completes _).completes

end Sys2Proof.Machine
end

section
/-! PROOF. FRAME_BUF at the port, and writes performed twice (20_memory.md R62, R70). -/

namespace Sys2Proof.Machine

open Sys2Proof

/-- Settles O20: the write of a byte's access, and one byte after one write. -/
theorem bufferWriteStoresOneByte : Obligations.BufferWriteStoresOneByte := by
  intro s i w rest hi hpend
  refine ⟨{ s with buf := s.buf.write i (w.extractLsb' 0 8), pending := rest, response := .done }, ?_, rfl, ?_, ?_⟩
  · exact (step_event hpend).trans (perform_write (target_bufOffset hi) w _)
  · exact Memory.read_write_same _ _ _
  · exact fun a ha => Memory.read_write_other _ _ ha

theorem Memory.insert_insert_same (i : Nat) (v : Byte) (cells : List Host.Cell) :
    Memory.insert i v (Memory.insert i v cells) = Memory.insert i v cells := by
  induction cells with
  | nil => simp [insert]
  | cons c rest ih =>
    obtain ⟨a, u⟩ := c
    by_cases hlt : i < a
    · simp [insert, hlt]
    · by_cases ha : a = i
      · simp [insert, ha]
      · simp [insert, hlt, ha, ih]

theorem Memory.write_write_same (m : Memory) (i : Nat) (v : Byte) : (m.write i v).write i v = m.write i v := by
  simp only [write, insert_insert_same]

/-- A register write outside CMD, performed again, changes nothing. -/
theorem writeReg_idempotent {r : Reg} {w : Word} {s t : State} (hr : r ≠ .cmd) (h : writeReg r w s = .next t) :
    writeReg r w t = .next t := by
  cases r with
  | cmd => exact absurd rfl hr
  | key i => cases h; simp only [writeReg, Vector.set_set]
  | _ => cases h; rfl

theorem writeReg_response {r : Reg} {w : Word} {s t : State} (hr : r ≠ .cmd) (h : writeReg r w s = .next t) :
    t.response = s.response := by
  rw [writeReg_frame hr h]

/-- Settles O21: the register or the byte a write names takes the same value again, and the port the same answer. -/
theorem writesOtherThanCmdAreIdempotent : Obligations.WritesOtherThanCmdAreIdempotent := by
  intro s t off n w hoff h
  obtain ⟨x, hx, hw⟩ := target_of_perform_write h
  rw [perform_write hx]
  cases x with
  | reg r =>
    have hr : r ≠ .cmd := by
      rintro rfl
      exact hoff (offset_of_target hx)
    have hdone : t.response = .done := writeReg_response hr hw
    rw [← hdone]
    exact writeReg_idempotent hr hw
  | byte i =>
    cases hw
    simp only [writeTarget, State.setBuf, Memory.write_write_same]

end Sys2Proof.Machine
end

section
/-! PROOF. The registers as words: each field at its bits, and what a write stores (10_state.md R21 to R37; 20_memory.md
R64). -/

namespace Sys2Proof.Machine

open Sys2Proof

/-! ### Words as numbers -/

/-- The number of a code is the one R220 prints beside it. -/
theorem codeByte_mem_resultCodes (c : ResultCode) : (c, (codeByte c).toNat) ∈ resultCodes := by
  cases c <;> decide

theorem resultWord_toNat (r : Result) :
    (resultWord r).toNat = (codeByte r.code).toNat + 2 ^ 8 * r.op.toNat + 2 ^ 16 * r.value.toNat := by
  simp only [resultWord, toNat_fields]
  omega

theorem smStateWord_toNat (x : BitVec 4) : (smStateWord x).toNat = x.toNat := by
  simp only [smStateWord, toNat_fields, BitVec.toNat_ofNat]
  omega

theorem cfgIdWord_toNat (c : CfgId) : (cfgIdWord c).toNat = c.myId.toNat + 2 ^ 16 * c.groupId.toNat := by
  simp only [cfgIdWord, toNat_fields, BitVec.toNat_ofNat]
  omega

theorem crcSeedWord_toNat (x : Half) : (crcSeedWord x).toNat = x.toNat := by
  simp only [crcSeedWord, toNat_fields, BitVec.toNat_ofNat]
  omega

theorem frameLenWord_toNat (x : Byte) : (frameLenWord x).toNat = x.toNat := by
  simp only [frameLenWord, toNat_fields, BitVec.toNat_ofNat]
  omega

theorem msgHdrWord_toNat (h : MsgHdr) :
    (msgHdrWord h).toNat = h.type.toNat + 2 ^ 8 * h.len.toNat + 2 ^ 16 * h.nonce.toNat := by
  simp only [msgHdrWord, toNat_fields, BitVec.toNat_ofNat]
  omega

theorem msgAddrWord_toNat (a : MsgAddr) :
    (msgAddrWord a).toNat = a.dest.toNat + 2 ^ 8 * a.src.toNat + 2 ^ 16 * a.seq.toNat + 2 ^ 24 * a.exp.toNat := by
  simp only [msgAddrWord, toNat_fields]
  omega

theorem queueBit_toNat (q : QueueId) : (queueBit q).toNat = if q = .cold then 1 else 0 := by
  cases q <;> rfl

theorem evtOutWord_toNat (e : EvtOut) :
    (evtOutWord e).toNat =
      e.valid.toNat + 2 * (if e.srcq = .cold then 1 else 0) + 2 ^ 2 * e.hp.toNat + 2 ^ 12 * e.kind.toNat +
        2 ^ 16 * e.handle.toNat + 2 ^ 24 * e.len.toNat := by
  simp only [evtOutWord, toNat_fields, BitVec.toNat_ofNat, BitVec.toNat_ofBool, queueBit_toNat]
  omega

/-- Settles O17: a legal read answers its register or byte, and each word is the sum of its fields. -/
theorem legalReadAnswersAndChangesNothing : Obligations.LegalReadAnswersAndChangesNothing := by
  refine ⟨fun s r rest hpend => ?_, fun s i rest hi hpend => ?_, fun s => ?_⟩
  · rw [step_event hpend, perform_read (target_offset r), readTarget_pending]
    rfl
  · exact (step_event hpend).trans (perform_read (target_bufOffset hi) _)
  · exact ⟨rfl, ⟨_, codeByte_mem_resultCodes _, resultWord_toNat _⟩, smStateWord_toNat _, cfgIdWord_toNat _,
      fun _ => rfl, crcSeedWord_toNat _, frameLenWord_toNat _, msgHdrWord_toNat _, msgAddrWord_toNat _,
      evtOutWord_toNat _⟩

/-! ### Words bit by bit -/

/-- What a write leaves of a register: the bits of `mask` from the new word, the others as they were. -/
def storeBits {n : Nat} (mask old new : BitVec n) : BitVec n := old &&& ~~~mask ||| new &&& mask

/-- The part of a word from bit `i` on is its two fields. -/
theorem extractLsb'_fields {l : Nat} (w : BitVec l) (i n m : Nat) :
    w.extractLsb' i (n + m) = w.extractLsb' (i + m) n ++ w.extractLsb' i m :=
  (BitVec.extractLsb'_append_extractLsb'_eq_extractLsb' rfl).symm

/-- A write stores field by field in the part of the word from bit `i` on. -/
theorem storeBits_fields {l n m : Nat} (k x : BitVec n) (k' x' : BitVec m) (w : BitVec l) (i : Nat) :
    storeBits (k ++ k') (x ++ x') (w.extractLsb' i (n + m)) =
      storeBits k x (w.extractLsb' (i + m) n) ++ storeBits k' x' (w.extractLsb' i m) := by
  simp only [extractLsb'_fields, storeBits, BitVec.not_append, BitVec.and_append, BitVec.or_append]

/-- The bits of a word from 0 on are the word. -/
theorem storeBits_word (mask old w : Word) : storeBits mask old w = storeBits mask old (w.extractLsb' 0 32) := by
  rw [BitVec.extractLsb'_eq_self]

/-- A field the mask covers takes the new bits. -/
@[simp] theorem storeBits_allOnes {n : Nat} (old new : BitVec n) : storeBits (BitVec.allOnes n) old new = new := by
  simp [storeBits]

/-- A field the mask does not cover keeps its bits. -/
@[simp] theorem storeBits_zero {n : Nat} (old new : BitVec n) : storeBits 0#n old new = old := by
  simp [storeBits]

/-! ### What a write stores -/

theorem smStateWord_smStateOfWord (x : BitVec 4) (w : Word) :
    smStateWord (smStateOfWord w) = storeBits (rwMask .smState) (smStateWord x) w := by
  rw [storeBits_word]
  change _ = storeBits (0#28 ++ BitVec.allOnes 4) (0#28 ++ x) (w.extractLsb' 0 (28 + 4))
  simp only [storeBits_fields, storeBits_allOnes, storeBits_zero]
  rfl

theorem cfgIdWord_cfgIdOfWord (c : CfgId) (w : Word) :
    cfgIdWord (cfgIdOfWord w) = storeBits (rwMask .cfgId) (cfgIdWord c) w := by
  rw [storeBits_word]
  change _ = storeBits (BitVec.allOnes 16 ++ 0#8 ++ BitVec.allOnes 8)
    (c.groupId ++ 0#8 ++ c.myId) (w.extractLsb' 0 (16 + 8 + 8))
  simp only [storeBits_fields, storeBits_allOnes, storeBits_zero]
  rfl

theorem crcSeedWord_crcSeedOfWord (x : Half) (w : Word) :
    crcSeedWord (crcSeedOfWord w) = storeBits (rwMask .crcSeed) (crcSeedWord x) w := by
  rw [storeBits_word]
  change _ = storeBits (0#16 ++ BitVec.allOnes 16) (0#16 ++ x) (w.extractLsb' 0 (16 + 16))
  simp only [storeBits_fields, storeBits_allOnes, storeBits_zero]
  rfl

theorem frameLenWord_frameLenOfWord (x : Byte) (w : Word) :
    frameLenWord (frameLenOfWord w) = storeBits (rwMask .frameLen) (frameLenWord x) w := by
  rw [storeBits_word]
  change _ = storeBits (0#24 ++ BitVec.allOnes 8) (0#24 ++ x) (w.extractLsb' 0 (24 + 8))
  simp only [storeBits_fields, storeBits_allOnes, storeBits_zero]
  rfl

theorem msgHdrWord_msgHdrOfWord (h : MsgHdr) (w : Word) :
    msgHdrWord (msgHdrOfWord h w) = storeBits (rwMask .msgHdr) (msgHdrWord h) w := by
  rw [storeBits_word]
  change _ = storeBits (0#16 ++ BitVec.allOnes 8 ++ 0#4 ++ BitVec.allOnes 4)
    (h.nonce ++ h.len ++ 0#4 ++ h.type) (w.extractLsb' 0 (16 + 8 + 4 + 4))
  simp only [storeBits_fields, storeBits_allOnes, storeBits_zero]
  rfl

theorem msgAddrWord_msgAddrOfWord (a : MsgAddr) (w : Word) :
    msgAddrWord (msgAddrOfWord w) = storeBits (rwMask .msgAddr) (msgAddrWord a) w := by
  rw [storeBits_word]
  change _ = storeBits (BitVec.allOnes 8 ++ BitVec.allOnes 8 ++ BitVec.allOnes 8 ++ BitVec.allOnes 8)
    (a.exp ++ a.seq ++ a.src ++ a.dest) (w.extractLsb' 0 (8 + 8 + 8 + 8))
  simp only [storeBits_fields, storeBits_allOnes]
  rfl

/-- After a write a register holds the word's RW bits, and its other bits as before (R64). -/
theorem readReg_writeReg_same {r : Reg} {w : Word} {s t : State} (h : writeReg r w s = .next t) :
    readReg t r = storeBits (rwMask r) (readReg s r) w := by
  cases r with
  | cmd => exact (storeBits_zero _ _).symm
  | result => cases h; exact (storeBits_zero _ _).symm
  | status => cases h; exact (storeBits_zero _ _).symm
  | smState => cases h; exact smStateWord_smStateOfWord _ _
  | cfgId => cases h; exact cfgIdWord_cfgIdOfWord _ _
  | key i => cases h; exact (Vector.getElem_set_self _).trans (storeBits_allOnes _ _).symm
  | crcSeed => cases h; exact crcSeedWord_crcSeedOfWord _ _
  | frameLen => cases h; exact frameLenWord_frameLenOfWord _ _
  | msgHdr => cases h; exact msgHdrWord_msgHdrOfWord _ _
  | msgAddr => cases h; exact msgAddrWord_msgAddrOfWord _ _
  | evtOut => cases h; exact (storeBits_zero _ _).symm

/-- The KEY registers after a write to register `r`. -/
def keyAfterWrite (r : Reg) (w : Word) (k : Vector Word 4) : Vector Word 4 :=
  match r with
  | .key i => k.set i w
  | _ => k

theorem getElem_keyAfterWrite (r : Reg) (w : Word) (k : Vector Word 4) (j : Fin 4) :
    (keyAfterWrite r w k)[j] = if r = .key j then w else k[j] := by
  cases r with
  | key i => simp [keyAfterWrite, Vector.getElem_set, Fin.ext_iff]
  | _ => rfl

/-- A register write outside CMD, field by field: only its own register's field is stored (R62, R64). -/
theorem writeReg_eq {r : Reg} (hr : r ≠ .cmd) (w : Word) (s : State) :
    writeReg r w s = .next { s with
      smState := if r = .smState then smStateOfWord w else s.smState
      cfgId := if r = .cfgId then cfgIdOfWord w else s.cfgId
      key := keyAfterWrite r w s.key
      crcSeed := if r = .crcSeed then crcSeedOfWord w else s.crcSeed
      frameLen := if r = .frameLen then frameLenOfWord w else s.frameLen
      msgHdr := if r = .msgHdr then msgHdrOfWord s.msgHdr w else s.msgHdr
      msgAddr := if r = .msgAddr then msgAddrOfWord w else s.msgAddr } := by
  cases r with
  | cmd => exact absurd rfl hr
  | _ => rfl

/-- A write to a register leaves every other register but the derived STATUS (R64). -/
theorem readReg_writeReg_other {r r' : Reg} {w : Word} {s t : State} (hr : r ≠ .cmd) (hne : r' ≠ r)
    (hstatus : r' ≠ .status) (h : writeReg r w s = .next t) : readReg t r' = readReg s r' := by
  rw [writeReg_eq hr] at h
  cases h
  cases r' with
  | cmd => rfl
  | result => rfl
  | status => exact absurd rfl hstatus
  | smState => exact congrArg smStateWord (if_neg hne.symm)
  | cfgId => exact congrArg cfgIdWord (if_neg hne.symm)
  | key i => exact (getElem_keyAfterWrite r w s.key i).trans (if_neg hne.symm)
  | crcSeed => exact congrArg crcSeedWord (if_neg hne.symm)
  | frameLen => exact congrArg frameLenWord (if_neg hne.symm)
  | msgHdr => exact congrArg msgHdrWord (if_neg hne.symm)
  | msgAddr => exact congrArg msgAddrWord (if_neg hne.symm)
  | evtOut => rfl

/-- The field of the written register takes its value from the word. -/
theorem writeReg_fields {r : Reg} {w : Word} {s t : State} (hr : r ≠ .cmd) (h : writeReg r w s = .next t) :
    (r = .smState → t.smState = smStateOfWord w) ∧
    (r = .cfgId → t.cfgId = cfgIdOfWord w) ∧
    (∀ i, r = .key i → t.key[i] = w) ∧
    (r = .crcSeed → t.crcSeed = crcSeedOfWord w) ∧
    (r = .frameLen → t.frameLen = frameLenOfWord w) ∧
    (r = .msgHdr → t.msgHdr = msgHdrOfWord s.msgHdr w) ∧
    (r = .msgAddr → t.msgAddr = msgAddrOfWord w) := by
  rw [writeReg_eq hr] at h
  cases h
  exact ⟨fun e => if_pos e, fun e => if_pos e, fun i e => (getElem_keyAfterWrite r w s.key i).trans (if_pos e),
    fun e => if_pos e, fun e => if_pos e, fun e => if_pos e, fun e => if_pos e⟩

/-! ### Bits that read 0 -/

theorem smStateWord_reserved (x : BitVec 4) : smStateWord x &&& reservedMask .smState = 0 := by
  change (0#28 ++ x) &&& (BitVec.allOnes 28 ++ 0#4) = 0#28 ++ 0#4
  simp only [BitVec.and_append, BitVec.and_zero, BitVec.zero_and]

theorem cfgIdWord_reserved (c : CfgId) : cfgIdWord c &&& reservedMask .cfgId = 0 := by
  change (c.groupId ++ 0#8 ++ c.myId) &&& (0#16 ++ BitVec.allOnes 8 ++ 0#8) = 0#16 ++ 0#8 ++ 0#8
  simp only [BitVec.and_append, BitVec.and_zero, BitVec.zero_and]

theorem crcSeedWord_reserved (x : Half) : crcSeedWord x &&& reservedMask .crcSeed = 0 := by
  change (0#16 ++ x) &&& (BitVec.allOnes 16 ++ 0#16) = 0#16 ++ 0#16
  simp only [BitVec.and_append, BitVec.and_zero, BitVec.zero_and]

theorem frameLenWord_reserved (x : Byte) : frameLenWord x &&& reservedMask .frameLen = 0 := by
  change (0#24 ++ x) &&& (BitVec.allOnes 24 ++ 0#8) = 0#24 ++ 0#8
  simp only [BitVec.and_append, BitVec.and_zero, BitVec.zero_and]

theorem msgHdrWord_reserved (h : MsgHdr) : msgHdrWord h &&& reservedMask .msgHdr = 0 := by
  change (h.nonce ++ h.len ++ 0#4 ++ h.type) &&& (0#16 ++ 0#8 ++ BitVec.allOnes 4 ++ 0#4) = 0#16 ++ 0#8 ++ 0#4 ++ 0#4
  simp only [BitVec.and_append, BitVec.and_zero, BitVec.zero_and]

theorem evtOutWord_reserved (e : EvtOut) : evtOutWord e &&& reservedMask .evtOut = 0 := by
  change (e.len ++ e.handle ++ e.kind ++ 0#9 ++ BitVec.ofBool e.hp ++ queueBit e.srcq ++ BitVec.ofBool e.valid) &&&
    (0#8 ++ 0#8 ++ 0#4 ++ BitVec.allOnes 9 ++ 0#1 ++ 0#1 ++ 0#1) =
      0#8 ++ 0#8 ++ 0#4 ++ 0#9 ++ 0#1 ++ 0#1 ++ 0#1
  simp only [BitVec.and_append, BitVec.and_zero, BitVec.zero_and]

theorem statusWord_reserved (s : State) : statusWord s &&& reservedMask .status = 0 := by
  change (0#11 ++ (_ : BitVec 1) ++ (_ : BitVec 1) ++ (_ : BitVec 1) ++ (_ : BitVec 1) ++ (_ : BitVec 1) ++ 0#3 ++
      (_ : BitVec 5) ++ 0#3 ++ (_ : BitVec 5)) &&&
    (BitVec.allOnes 11 ++ 0#1 ++ 0#1 ++ 0#1 ++ 0#1 ++ 0#1 ++ BitVec.allOnes 3 ++ 0#5 ++ BitVec.allOnes 3 ++ 0#5) =
      0#11 ++ 0#1 ++ 0#1 ++ 0#1 ++ 0#1 ++ 0#1 ++ 0#3 ++ 0#5 ++ 0#3 ++ 0#5
  simp only [BitVec.and_append, BitVec.and_zero, BitVec.zero_and]

/-- The reserved bits of every register read 0 (R64). -/
theorem readReg_reserved (s : State) (r : Reg) : readReg s r &&& reservedMask r = 0 := by
  cases r with
  | cmd => exact BitVec.zero_and
  | result => exact BitVec.and_zero
  | status => exact statusWord_reserved s
  | smState => exact smStateWord_reserved s.smState
  | cfgId => exact cfgIdWord_reserved s.cfgId
  | key i => exact BitVec.and_zero
  | crcSeed => exact crcSeedWord_reserved s.crcSeed
  | frameLen => exact frameLenWord_reserved s.frameLen
  | msgHdr => exact msgHdrWord_reserved s.msgHdr
  | msgAddr => exact BitVec.and_zero
  | evtOut => exact evtOutWord_reserved s.evtOut

/-- Settles O18: a register's write stores its RW bits, leaves the other registers, and has no bit to store a reserved
bit in. -/
theorem registerWriteStoresTheRwFields : Obligations.RegisterWriteStoresTheRwFields := by
  refine ⟨fun s r w rest hcmd _ hpend => ?_, readReg_reserved⟩
  obtain ⟨t, ht⟩ := (writeReg_completes r w { s with pending := rest, response := .done }).completes
  have hsame := readReg_writeReg_same ht
  rw [readReg_port] at hsame
  have hother : ∀ r', r' ≠ r → r' ≠ .status → readReg t r' = readReg s r' := fun r' hne hstatus =>
    (readReg_writeReg_other hcmd hne hstatus ht).trans (readReg_port s rest .done r')
  have hframe : t.pending = rest ∧ t.response = .done ∧ t.buf = s.buf ∧ t.hotq = s.hotq ∧ t.coldq = s.coldq ∧
      t.draws = s.draws := by
    rw [writeReg_frame hcmd ht]
    exact ⟨rfl, rfl, rfl, rfl, rfl, rfl⟩
  obtain ⟨hpending, hresponse, hbuf, hhotq, hcoldq, hdraws⟩ := hframe
  obtain ⟨hsm, hcfg, hkey, hseed, hlen, hhdr, haddr⟩ := writeReg_fields hcmd ht
  refine ⟨t, (step_writeReg hpend).trans ht, hpending, hresponse, hsame, hother, fun a => by rw [hbuf], hhotq, hcoldq,
    hdraws, hsm, fun e => ?_, hkey, hseed, hlen, fun e => ?_, fun e => ?_⟩
  · rw [hcfg e]
    exact ⟨rfl, rfl⟩
  · rw [hhdr e]
    exact ⟨rfl, rfl, rfl⟩
  · rw [haddr e]
    exact ⟨rfl, rfl, rfl, rfl⟩

end Sys2Proof.Machine
end

section
/-! PROOF. The command word (30_encoding.md R90 to R97): the encoder writes into the bits a row leaves free exactly the
operands the row reads there, so that decoder and encoder undo each other. -/

namespace Sys2Proof.Machine

open Sys2Proof

/-! ### The rows -/

theorem selects_iff (r : OpRow) (w : Word) : r.selects w = true ↔ w &&& r.mask = r.pattern := beq_iff_eq

/-- The rows of the decoder have the patterns and masks of R94. -/
theorem opcodeMap_eq_map : opcodeMap = opRows.map fun r => (r.pattern, r.mask) := rfl

/-- A word selects a row of R94 exactly when it selects a row of the decoder. -/
theorem forall_opcodeMap_ne_iff (w : Word) :
    (∀ r ∈ opcodeMap, w &&& r.2 ≠ r.1) ↔ ∀ r ∈ opRows, r.selects w = false := by
  simp only [opcodeMap_eq_map, List.forall_mem_map, ← Bool.not_eq_true, selects_iff, ne_eq]

/-- A word that selects no row is refused (R95). -/
theorem decodeWord_error_of_selects_none {w : Word} (h : ∀ r ∈ opcodeMap, w &&& r.2 ≠ r.1) :
    ∃ e, decodeWord w = .error e := by
  rcases decodeWord_cases w with ⟨r, hr, hs, _⟩ | ⟨_, he⟩
  · rw [(forall_opcodeMap_ne_iff w).mp h r hr] at hs
    cases hs
  · exact he

/-- No word selects two rows: its low byte is the opcode of each, and the opcodes differ. -/
theorem opRows_eq_of_selects {w : Word} {r r' : OpRow} (hr : r ∈ opRows) (hr' : r' ∈ opRows)
    (h : r.selects w = true) (h' : r'.selects w = true) : r = r' :=
  opRows_opcode_inj hr hr' ((opByte_of_selects hr h).symm.trans (opByte_of_selects hr' h'))

/-- The word of row `k` decodes to the command the row reads. -/
theorem decodeWord_of_and_mask (k : Fin 7) {w : Word} (h : w &&& opRows[k].mask = opRows[k].pattern) :
    decodeWord w = .ok (opRows[k].read w) :=
  decodeWord_of_selects (List.getElem_mem _) ((selects_iff _ w).mpr h)

/-- Settles O3: row by row, and the rows have different opcodes. -/
theorem decoderReadsTheRowAWordSelects : Obligations.DecoderReadsTheRowAWordSelects := by
  refine ⟨fun w => ⟨decodeWord_of_and_mask 0, decodeWord_of_and_mask 1, decodeWord_of_and_mask 2,
    decodeWord_of_and_mask 3, decodeWord_of_and_mask 4, decodeWord_of_and_mask 5, decodeWord_of_and_mask 6,
    decodeWord_error_of_selects_none⟩, fun w => ?_⟩
  simp only [opcodeMap_eq_map, List.forall_mem_map]
  intro r hr r' hr' h h'
  rw [opRows_eq_of_selects hr hr' ((selects_iff r w).mpr h) ((selects_iff r' w).mpr h')]

/-! ### The encoder writes what a row reads -/

/-- PS is bit 8 of the word. -/
theorem bit_polyOfBit (w : Word) : (polyOfBit (w.getLsbD 8)).bit = w.extractLsb' 8 1 := by
  have hbit : ∀ b : BitVec 1, (polyOfBit (b == 1#1)).bit = b := by decide
  rw [BitVec.getLsbD_eq_extractLsb', hbit]

/-- Q is bit 8 of the word. -/
theorem bit_queueOfBit (w : Word) : (queueOfBit (w.getLsbD 8)).bit = w.extractLsb' 8 1 := by
  have hbit : ∀ b : BitVec 1, (queueOfBit (b == 1#1)).bit = b := by decide
  rw [BitVec.getLsbD_eq_extractLsb', hbit]

/-- A flag of the word is its field of one bit. -/
theorem ofBool_getLsbD (w : Word) (k : Nat) : BitVec.ofBool (w.getLsbD k) = w.extractLsb' k 1 := by
  have hbit : ∀ b : BitVec 1, BitVec.ofBool (b == 1#1) = b := by decide
  rw [BitVec.getLsbD_eq_extractLsb', hbit]

/-- The command a row reads from a word is encoded as the row's pattern, with the word's own bits where the mask has
none. -/
theorem encodeWord_read {r : OpRow} (hr : r ∈ opRows) (w : Word) :
    encodeWord (r.read w) = storeBits (~~~r.mask) r.pattern w := by
  simp only [opRows, List.mem_cons, List.not_mem_nil, or_false] at hr
  rcases hr with rfl | rfl | rfl | rfl | rfl | rfl | rfl
  · rw [storeBits_word]
    change _ = storeBits (BitVec.allOnes 8 ++ BitVec.allOnes 8 ++ 0#7 ++ BitVec.allOnes 1 ++ 0#8)
      (0#8 ++ 0#8 ++ 0#7 ++ 0#1 ++ 0x01#8) (w.extractLsb' 0 (8 + 8 + 7 + 1 + 8))
    simp only [storeBits_fields, storeBits_allOnes, storeBits_zero, encodeWord, bit_polyOfBit,
      BitVec.ofNat_toNat, BitVec.setWidth_eq]
  · rw [storeBits_word]
    change _ = storeBits (0#8 ++ BitVec.allOnes 8 ++ 0#4 ++ BitVec.allOnes 4 ++ 0#8)
      (0#8 ++ 0#8 ++ 0#4 ++ 0#4 ++ 0x10#8) (w.extractLsb' 0 (8 + 8 + 4 + 4 + 8))
    simp only [storeBits_fields, storeBits_allOnes, storeBits_zero, encodeWord, BitVec.ofNat_toNat, BitVec.setWidth_eq]
  · exact (storeBits_zero _ _).symm
  · exact (storeBits_zero _ _).symm
  · rw [storeBits_word]
    change _ = storeBits
      (BitVec.allOnes 8 ++ BitVec.allOnes 8 ++ BitVec.allOnes 4 ++ 0#2 ++ BitVec.allOnes 1 ++ BitVec.allOnes 1 ++ 0#8)
      (0#8 ++ 0#8 ++ 0#4 ++ 0#2 ++ 0#1 ++ 0#1 ++ 0x20#8) (w.extractLsb' 0 (8 + 8 + 4 + 2 + 1 + 1 + 8))
    simp only [storeBits_fields, storeBits_allOnes, storeBits_zero, encodeWord, bit_queueOfBit, ofBool_getLsbD,
      BitVec.ofNat_toNat, BitVec.setWidth_eq]
  · rw [storeBits_word]
    change _ = storeBits (0#23 ++ BitVec.allOnes 1 ++ 0#8) (0#23 ++ 0#1 ++ 0x21#8) (w.extractLsb' 0 (23 + 1 + 8))
    simp only [storeBits_fields, storeBits_allOnes, storeBits_zero, encodeWord, bit_queueOfBit]
  · exact (storeBits_zero _ _).symm

/-- Storing outside a mask leaves the bits under it. -/
theorem storeBits_not_and {n : Nat} (mask old new : BitVec n) :
    storeBits (~~~mask) old new &&& mask = old &&& mask := by
  ext k
  simp only [storeBits, BitVec.getElem_and, BitVec.getElem_or, BitVec.getElem_not]
  cases mask[k] <;> simp

/-- Storing a word's bits outside a mask over its bits under it gives the word. -/
theorem storeBits_and_self {n : Nat} (mask w : BitVec n) : storeBits (~~~mask) (w &&& mask) w = w := by
  ext k
  simp only [storeBits, BitVec.getElem_and, BitVec.getElem_or, BitVec.getElem_not]
  cases mask[k] <;> simp

/-- Every operand a row reads fits the field it is read from (R91). -/
theorem wellFormed_read {r : OpRow} (hr : r ∈ opRows) (w : Word) : WellFormed (r.read w) = true := by
  simp only [opRows, List.mem_cons, List.not_mem_nil, or_false] at hr
  rcases hr with rfl | rfl | rfl | rfl | rfl | rfl | rfl
  · exact Bool.and_eq_true_iff.mpr ⟨decide_eq_true (BitVec.isLt _), decide_eq_true (BitVec.isLt _)⟩
  · exact Bool.and_eq_true_iff.mpr ⟨decide_eq_true (BitVec.isLt _), decide_eq_true (BitVec.isLt _)⟩
  · rfl
  · rfl
  · exact decide_eq_true (BitVec.isLt _)
  · rfl
  · rfl

/-- Settles O2: the word selects its row, so the fixed bits are the row's, and the others are the operands'. -/
theorem encodeOfDecodeIsTheWord : Obligations.EncodeOfDecodeIsTheWord := by
  intro w i hdec
  rcases decodeWord_cases w with ⟨r, hr, hs, hd⟩ | ⟨_, e, hd⟩
  · cases hdec.symm.trans hd
    refine ⟨wellFormed_read hr w, ?_⟩
    rw [encodeWord_read hr, ← (selects_iff r w).mp hs, storeBits_and_self]
  · cases hdec.symm.trans hd

/-! ### A row reads what the encoder writes -/

/-- The polynomial that bit 8 of a word with `ps` there names. -/
theorem polyOfBit_bit (ps : PolySel) : polyOfBit (ps.bit == 1#1) = ps := by
  cases ps <;> rfl

/-- The queue that bit 8 of a word with `q` there names. -/
theorem queueOfBit_bit (q : QueueId) : queueOfBit (q.bit == 1#1) = q := by
  cases q <;> rfl

theorem ofBool_beq_one (b : Bool) : (BitVec.ofBool b == 1#1) = b := by
  cases b <;> rfl

/-- The row of a well-formed command reads the command back out of its word: in the append that makes the word, each
field begins at the bit where the row reads it. -/
theorem exists_row_read_encodeWord {i : Instr} (hi : WellFormed i = true) :
    ∃ r ∈ opRows, r.read (encodeWord i) = i := by
  cases i with
  | crcCompute ps off len =>
    simp only [WellFormed, Bool.and_eq_true, decide_eq_true_eq] at hi
    obtain ⟨hoff, hlen⟩ := hi
    refine ⟨opRows[0], List.getElem_mem _, ?_⟩
    simp (disch := decide) only [opRows, List.getElem_cons_zero, encodeWord, BitVec.getLsbD_eq_extractLsb',
      BitVec.extractLsb'_append_eq_of_le, Nat.reduceSub, BitVec.extractLsb'_append_eq_right, BitVec.extractLsb'_eq_self,
      polyOfBit_bit, BitVec.toNat_ofNat, Nat.reducePow, Nat.mod_eq_of_lt hoff, Nat.mod_eq_of_lt hlen]
  | frameSize type len =>
    simp only [WellFormed, Bool.and_eq_true, decide_eq_true_eq] at hi
    obtain ⟨htype, hlen⟩ := hi
    refine ⟨opRows[1], List.getElem_mem _, ?_⟩
    simp (disch := decide) only [opRows, List.getElem_cons_zero, List.getElem_cons_succ, encodeWord,
      BitVec.extractLsb'_append_eq_of_le, Nat.reduceSub, BitVec.extractLsb'_append_eq_right, BitVec.toNat_ofNat,
      Nat.reducePow, Nat.mod_eq_of_lt htype, Nat.mod_eq_of_lt hlen]
  | encode => exact ⟨opRows[2], List.getElem_mem _, rfl⟩
  | decode => exact ⟨opRows[3], List.getElem_mem _, rfl⟩
  | qPush q hp kind handle len =>
    simp only [WellFormed, decide_eq_true_eq] at hi
    refine ⟨opRows[4], List.getElem_mem _, ?_⟩
    simp (disch := decide) only [opRows, List.getElem_cons_zero, List.getElem_cons_succ, encodeWord,
      BitVec.getLsbD_eq_extractLsb', BitVec.extractLsb'_append_eq_of_le, Nat.reduceSub,
      BitVec.extractLsb'_append_eq_right, BitVec.extractLsb'_eq_self, queueOfBit_bit, ofBool_beq_one,
      BitVec.toNat_ofNat, Nat.reducePow, Nat.mod_eq_of_lt hi]
  | qPop q =>
    refine ⟨opRows[5], List.getElem_mem _, ?_⟩
    simp (disch := decide) only [opRows, List.getElem_cons_zero, List.getElem_cons_succ, encodeWord,
      BitVec.getLsbD_eq_extractLsb', BitVec.extractLsb'_append_eq_of_le, Nat.reduceSub,
      BitVec.extractLsb'_append_eq_right, queueOfBit_bit]
  | arbNext => exact ⟨opRows[6], List.getElem_mem _, rfl⟩

/-- Every row's pattern lies under its mask. -/
theorem pattern_and_mask {r : OpRow} (hr : r ∈ opRows) : r.pattern &&& r.mask = r.pattern := by
  simp only [opRows, List.mem_cons, List.not_mem_nil, or_false] at hr
  rcases hr with rfl | rfl | rfl | rfl | rfl | rfl | rfl <;> rfl

/-- The word of the command a row reads selects that row, whatever word it was read from. -/
theorem selects_encodeWord_read {r : OpRow} (hr : r ∈ opRows) (w : Word) :
    r.selects (encodeWord (r.read w)) = true := by
  rw [selects_iff, encodeWord_read hr, storeBits_not_and, pattern_and_mask hr]

/-- Settles O1: the word of a command selects the row that reads the command back out of it. -/
theorem decodeOfEncodeIsTheCommand : Obligations.DecodeOfEncodeIsTheCommand := by
  intro i hi
  obtain ⟨r, hr, hread⟩ := exists_row_read_encodeWord hi
  have hs : r.selects (encodeWord i) = true := by
    rw [← hread]
    exact selects_encodeWord_read hr (encodeWord i)
  rw [decodeWord_of_selects hr hs, hread]

/-- Settles O4: each word is the encoding of its command. -/
theorem sampleWordsDecode : Obligations.SampleWordsDecode :=
  ⟨decodeOfEncodeIsTheCommand (.crcCompute .ibm 0 9) rfl, decodeOfEncodeIsTheCommand (.crcCompute .alt 4 5) rfl,
    decodeOfEncodeIsTheCommand (.frameSize 0 5) rfl, decodeOfEncodeIsTheCommand (.frameSize 1 200) rfl,
    decodeOfEncodeIsTheCommand .encode rfl, decodeOfEncodeIsTheCommand .decode rfl,
    decodeOfEncodeIsTheCommand (.qPush .cold true 2 7 40) rfl, decodeOfEncodeIsTheCommand (.qPop .cold) rfl,
    decodeOfEncodeIsTheCommand .arbNext rfl⟩

/-! ### The assembler's words (R97) -/

/-- CRC_COMPUTE's word, each field shifted to its place. The widths stay sums (`-Nat.reduceAdd`), or no append would
match the rule that splits it. -/
theorem encodeWord_crcCompute (ps : PolySel) {off len : Nat} (hoff : off < 256) (hlen : len < 256) :
    encodeWord (.crcCompute ps off len) =
      BitVec.ofNat 32 len <<< 24 ||| BitVec.ofNat 32 off <<< 16 ||| ps.bit.setWidth 32 <<< 8 ||| 0x01 := by
  rw [← BitVec.setWidth_eq (encodeWord _), encodeWord]
  simp only [BitVec.setWidth_append_eq_shiftLeft_setWidth_or, -Nat.reduceAdd,
    BitVec.setWidth_ofNat_of_le_of_lt (by decide : 8 ≤ 32) hoff,
    BitVec.setWidth_ofNat_of_le_of_lt (by decide : 8 ≤ 32) hlen]
  simp [BitVec.shiftLeft_or_distrib, ← BitVec.shiftLeft_add]

/-- FRAME_SIZE's word, each field shifted to its place. -/
theorem encodeWord_frameSize {type len : Nat} (htype : type < 16) (hlen : len < 256) :
    encodeWord (.frameSize type len) = BitVec.ofNat 32 len <<< 16 ||| BitVec.ofNat 32 type <<< 8 ||| 0x10 := by
  rw [← BitVec.setWidth_eq (encodeWord _), encodeWord]
  simp only [BitVec.setWidth_append_eq_shiftLeft_setWidth_or, -Nat.reduceAdd,
    BitVec.setWidth_ofNat_of_le_of_lt (by decide : 4 ≤ 32) htype,
    BitVec.setWidth_ofNat_of_le_of_lt (by decide : 8 ≤ 32) hlen]
  simp [BitVec.shiftLeft_or_distrib, ← BitVec.shiftLeft_add]

/-- Q_PUSH's word, each field shifted to its place. -/
theorem encodeWord_qPush (q : QueueId) (hp : Bool) {kind : Nat} (handle len : Byte) (hkind : kind < 16) :
    encodeWord (.qPush q hp kind handle len) =
      len.setWidth 32 <<< 24 ||| handle.setWidth 32 <<< 16 ||| BitVec.ofNat 32 kind <<< 12 |||
        (BitVec.ofBool hp).setWidth 32 <<< 9 ||| q.bit.setWidth 32 <<< 8 ||| 0x20 := by
  rw [← BitVec.setWidth_eq (encodeWord _), encodeWord]
  simp only [BitVec.setWidth_append_eq_shiftLeft_setWidth_or, -Nat.reduceAdd,
    BitVec.setWidth_ofNat_of_le_of_lt (by decide : 4 ≤ 32) hkind]
  simp [BitVec.shiftLeft_or_distrib, ← BitVec.shiftLeft_add]

/-- Settles O5: each field of the word, shifted to its place. -/
theorem assemblerWordsAreThoseOfTheTable : Obligations.AssemblerWordsAreThoseOfTheTable := by
  refine ⟨⟨rfl, rfl, rfl, rfl, rfl⟩, fun off len hoff hlen => ?_, fun _ _ => encodeWord_frameSize,
    fun kind handle len hkind => ?_⟩
  · simp [encodeWord_crcCompute _ hoff hlen, PolySel.bit]
  · simp [encodeWord_qPush _ _ _ _ hkind, QueueId.bit]

/-! ### Words that select no row -/

/-- Settles O7: no row, so no command, and what is left reports ILLEGAL. -/
theorem illegalWordWritesOnlyResult : Obligations.IllegalWordWritesOnlyResult := by
  intro s w rest hpend hnone
  obtain ⟨e, he⟩ := decodeWord_error_of_selects_none fun r hr h => hnone ⟨r, hr, h⟩
  rw [step_writeReg (r := .cmd) hpend]
  simp only [writeReg, execWord, he]
  rfl

end Sys2Proof.Machine
end

section
/-! PROOF. The pseudo-instructions `setkey` and `wrbuf` (30_encoding.md R98): a run performs their accesses one by one.
-/

namespace Sys2Proof.Machine

open Sys2Proof

/-- A run over exactly the waiting events performs them in order and leaves none waiting. -/
theorem run_pending {s : State} {es : List PortEvent} (h : s.pending = es) :
    Sys2Proof.core.run es.length s = performAll es { s with pending := [] } := by
  have hs : s = { s with pending := es ++ [] } := by rw [List.append_nil, ← h]
  rw [hs]
  exact portPerformsEventsInOrder es [] s

theorem performAll_cons {e : PortEvent} {s t : State} (h : perform e s = .next t) (es : List PortEvent) :
    performAll (e :: es) s = performAll es t := by
  simp only [performAll, h]

/-- A write to KEYi stores its word (R30). -/
theorem perform_writeKey (i : Fin 4) (w : Word) (s : State) :
    perform (.write (Reg.key i).offset 4 w) s = .next { s with key := s.key.set i w, response := .done } :=
  perform_write (target_offset (.key i)) w s

/-- A one-byte write at FRAME_BUF byte `i` stores its byte (20_memory.md R62). -/
theorem perform_writeByte {i : Nat} (hi : i < 256) (b : Byte) (s : State) :
    perform (.write (bufOffset i) 1 (0#24 ++ b)) s = .next { s with buf := s.buf.write i b, response := .done } := by
  have hb : (0#24 ++ b).extractLsb' 0 8 = b := BitVec.extractLsb'_append_eq_right
  rw [bufOffset, perform_write (target_bufOffset hi), writeTarget, hb]
  rfl

/-! ### setkey -/

/-- Once all four KEY registers are written, nothing is left of the old ones. -/
theorem set_all_keys (v : Vector Word 4) (a b c d : Word) :
    (((v.set 0 a).set 1 b).set 2 c).set 3 d = #v[a, b, c, d] := by
  refine Vector.ext fun j hj => ?_
  interval_cases j <;> simp

/-- The four accesses of `setkey` write the four KEY registers. -/
theorem performAll_setKey (k : Vector Byte 16) (s : State) :
    performAll (expand (.setKey k)) s =
      .next { s with key := #v[keyWord k 0, keyWord k 1, keyWord k 2, keyWord k 3], response := .done } := by
  rw [← set_all_keys s.key]
  simp only [expand, List.map_cons, List.map_nil, performAll, perform_writeKey]
  rfl

/-- The four key words of R98 put together are the sixteen bytes in their order (R30). -/
theorem keyWord_append (k : Vector Byte 16) :
    keyWord k 0 ++ keyWord k 1 ++ keyWord k 2 ++ keyWord k 3 =
      k[0] ++ k[1] ++ k[2] ++ k[3] ++ k[4] ++ k[5] ++ k[6] ++ k[7] ++ k[8] ++ k[9] ++ k[10] ++ k[11] ++
        k[12] ++ k[13] ++ k[14] ++ k[15] := by
  have h0 : keyWord k 0 = k[0] ++ k[1] ++ k[2] ++ k[3] := rfl
  have h1 : keyWord k 1 = k[4] ++ k[5] ++ k[6] ++ k[7] := rfl
  have h2 : keyWord k 2 = k[8] ++ k[9] ++ k[10] ++ k[11] := rfl
  have h3 : keyWord k 3 = k[12] ++ k[13] ++ k[14] ++ k[15] := rfl
  apply BitVec.eq_of_toNat_eq
  simp only [h0, h1, h2, h3, toNat_fields]
  omega

/-- Settles O59: four steps perform the four writes, whose words put together are the key. -/
theorem setKeyWritesTheKeyBytes : Obligations.SetKeyWritesTheKeyBytes := by
  intro s k hpend
  exact ⟨_, (run_pending hpend).trans (performAll_setKey k _), rfl, keyWord_append k⟩

/-! ### wrbuf -/

@[simp] theorem wrBufLines_length (i : Nat) (bytes : List Byte) : (wrBufLines i bytes).length = bytes.length := by
  induction bytes generalizing i with
  | nil => rfl
  | cons b rest ih => simp [wrBufLines, ih]

/-- The writes of `wrbuf` store its bytes one after the other, and each that is performed is answered. -/
theorem performAll_wrBufLines {i : Nat} {bytes : List Byte} (h : i + bytes.length ≤ 256) (s : State) :
    performAll (wrBufLines i bytes) s =
      .next { s with
        buf := s.buf.writeBytes i bytes
        response := if bytes = [] then s.response else .done } := by
  induction bytes generalizing i s with
  | nil => rfl
  | cons b rest ih =>
    rw [List.length_cons] at h
    rw [wrBufLines, performAll_cons (perform_writeByte (by omega) b s), ih (by omega), ite_self]
    rfl

/-- Settles O60: as many steps as bytes perform the writes, and each byte reads as the run of writes left it. -/
theorem wrBufWritesItsBytes : Obligations.WrBufWritesItsBytes := by
  intro s i bytes hlen hne hpend
  have hrun := (run_pending hpend).trans (performAll_wrBufLines hlen _)
  rw [expand, wrBufLines_length, if_neg hne] at hrun
  exact ⟨_, hrun, rfl, fun a => Memory.read_writeBytes bytes s.buf i a⟩

end Sys2Proof.Machine
end

section
/-! PROOF. The IBM CRC tells apart two byte strings that differ in one bit (42_crc_engine.md R172): one shift loses
nothing of the register, because the polynomial has a constant term. -/

namespace Sys2Proof.Machine

open Sys2Proof

/-- With a constant term in the polynomial, bit 0 after a shift records whether the polynomial was added. -/
theorem crcShift_getLsbD_zero {poly : Half} (hpoly : poly.getLsbD 0 = true) (c : Half) (bit : Bool) :
    (crcShift poly c bit).getLsbD 0 = (c.getLsbD 15 != bit) := by
  unfold crcShift
  cases c.getLsbD 15 != bit <;> simp [hpoly]

/-- Then a shift keeps different registers different: bit 0 tells what bit 15 was, and the rest only moves. -/
theorem crcShift_injective {poly : Half} (hpoly : poly.getLsbD 0 = true) (bit : Bool) :
    Function.Injective fun c => crcShift poly c bit := by
  intro c d h
  have htop : c.getLsbD 15 = d.getLsbD 15 := by
    have h0 := congrArg (BitVec.getLsbD · 0) h
    simp only [crcShift_getLsbD_zero hpoly] at h0
    exact Bool.bne_left_inj.mp h0
  have hshift : c <<< 1 = d <<< 1 := by
    simp only [crcShift, htop] at h
    split_ifs at h
    · exact (BitVec.xor_left_inj poly).mp h
    · exact h
  refine BitVec.eq_of_getLsbD_eq fun i hi => ?_
  rcases Nat.lt_or_eq_of_le (Nat.le_of_lt_succ hi) with hlt | rfl
  · have hi1 := congrArg (BitVec.getLsbD · (i + 1)) hshift
    simpa [Nat.add_lt_add_right hlt 1, BitVec.getLsbD_eq_getElem hi] using hi1
  · exact htop

/-- Then too the data bit decides the register. -/
theorem crcShift_ne_of_bit_ne {poly : Half} (hpoly : poly.getLsbD 0 = true) (c : Half) {x y : Bool} (hxy : x ≠ y) :
    crcShift poly c x ≠ crcShift poly c y := by
  intro h
  have h0 := congrArg (BitVec.getLsbD · 0) h
  simp only [crcShift_getLsbD_zero hpoly] at h0
  exact hxy (Bool.bne_right_inj.mp h0)

/-- A fold whose every step is injective is injective in where it starts. -/
theorem foldl_injective {α β : Type} {f : β → α → β} (hf : ∀ a, Function.Injective fun b => f b a) (l : List α) :
    Function.Injective fun b => l.foldl f b := by
  induction l with
  | nil => exact Function.injective_id
  | cons a rest ih => exact ih.comp (hf a)

/-- The register after bits read at the indices `l` from `f` and from `g`, which differ at one of them. -/
theorem foldl_crcShift_ne {poly : Half} (hpoly : poly.getLsbD 0 = true) {f g : Nat → Bool} {k : Nat}
    (hk : f k ≠ g k) (hother : ∀ i, i ≠ k → f i = g i) {l : List Nat} (hmem : k ∈ l) (hnodup : l.Nodup) (c : Half) :
    l.foldl (fun c i => crcShift poly c (f i)) c ≠ l.foldl (fun c i => crcShift poly c (g i)) c := by
  induction l generalizing c with
  | nil => cases hmem
  | cons i rest ih =>
    obtain ⟨hi, hrest⟩ := List.nodup_cons.mp hnodup
    simp only [List.foldl_cons]
    by_cases hik : i = k
    · subst hik
      have hsame : ∀ d : Half, ∀ j ∈ rest, crcShift poly d (f j) = crcShift poly d (g j) := fun d j hj => by
        rw [hother j (ne_of_mem_of_not_mem hj hi)]
      rw [List.foldl_ext _ _ _ hsame]
      exact (foldl_injective (fun j => crcShift_injective hpoly (g j)) rest).ne (crcShift_ne_of_bit_ne hpoly c hk)
    · rw [hother i hik]
      exact ih ((List.mem_cons.mp hmem).resolve_left (Ne.symm hik)) hrest _

/-- Flipping bit `k` of a byte changes that bit and no other. -/
theorem getLsbD_flip (b : Byte) {k : Nat} (hk : k < 8) (i : Nat) :
    (b ^^^ (1#8 <<< k)).getLsbD i = (b.getLsbD i != decide (k = i)) := by
  rw [← BitVec.twoPow_eq, BitVec.getLsbD_xor, BitVec.getLsbD_twoPow]
  simp [hk]

/-- One byte with a bit flipped leaves another register. -/
theorem crcStep_ne_of_flip {poly : Half} (hpoly : poly.getLsbD 0 = true) (c : Half) (b : Byte) {k : Nat} (hk : k < 8) :
    crcStep poly c b ≠ crcStep poly c (b ^^^ (1#8 <<< k)) := by
  refine foldl_crcShift_ne hpoly (k := k) ?_ (fun i hi => ?_) ?_ (by decide) c
  · simp [getLsbD_flip b hk]
  · simp [getLsbD_flip b hk, Ne.symm hi]
  · interval_cases k <;> simp

theorem crcStep_injective {poly : Half} (hpoly : poly.getLsbD 0 = true) (b : Byte) :
    Function.Injective fun c => crcStep poly c b :=
  foldl_injective (fun i => crcShift_injective hpoly (b.getLsbD i)) _

/-- Settles O32: the registers differ after the byte that differs, and no later byte makes them equal again. -/
theorem crcSeesEverySingleBitFlip : Obligations.CrcSeesEverySingleBitFlip := by
  intro x y b k a hk h
  have hpoly : Params.polyIbm.getLsbD 0 = true := by decide
  have hraw := BitVec.not_inj.mp h
  simp only [List.foldl_append, List.foldl_cons] at hraw
  exact crcStep_ne_of_flip hpoly _ b hk (foldl_injective (crcStep_injective hpoly) y hraw)

end Sys2Proof.Machine
end

section
/-! PROOF. The commands of the codec (41_frame_codec.md): FRAME_SIZE, ENCODE and DECODE by the outcome of their checks,
what each reads, and what a second DECODE does. -/

namespace Sys2Proof.Machine

open Sys2Proof

/-- `result(code, 0)` writes RESULT alone (R23). -/
theorem State.report_zero (s : State) (op : Byte) (code : ResultCode) :
    s.report op code 0 = { s with result := ⟨code, op, 0⟩ } := by
  rw [State.report, ite_self]
  rfl

/-- A type code names a type exactly when it is that type's code (R104). -/
theorem frameTypeOf_eq_some_iff (x : BitVec 4) (t : FrameType) : frameTypeOf x.toNat = some t ↔ x = t.code := by
  cases t <;> revert x <;> decide

/-! ### FRAME_SIZE -/

/-- Settles O33: one case for each type the block knows, and one for every other code. -/
theorem frameSizeReportsTheSize : Obligations.FrameSizeReportsTheSize := by
  intro type len s
  simp only [exec_frameSize, execFrameSize]
  refine ⟨?_, ?_, ?_, fun h0 h1 => ?_⟩
  · rintro rfl hlen
    exact congrArg _ (if_neg (Nat.not_lt.mpr hlen))
  · rintro rfl hlen
    exact congrArg _ (if_pos hlen)
  · rintro rfl
    rfl
  · have hnone : frameTypeOf type = none := by rw [frameTypeOf, if_neg h0, if_neg h1]
    rw [hnone]
    rfl

/-- FRAME_SIZE of an allowed message reports the size of its frame (R120). -/
theorem execFrameSize_of_payloadLen {type : Nat} {t : FrameType} {len : Byte} (s : State)
    (ht : frameTypeOf type = some t) (hn : payloadLen t len ≤ Params.maxPayload) :
    execFrameSize type len.toNat s = .next (s.report 0x10 .ok (BitVec.ofNat 16 (frameBytes t (payloadLen t len)))) := by
  simp only [execFrameSize, ht]
  cases t with
  | standard => exact congrArg _ (if_neg (Nat.not_lt.mpr hn))
  | ack => rfl

/-! ### The cipher -/

/-- Settles O35: each byte is XORed with the same keystream byte twice. -/
theorem cryptIsAnInvolution : Obligations.CryptIsAnInvolution := by
  intro ks size m i
  refine ⟨crypt_read ks size m i, ?_⟩
  rw [crypt_read, crypt_read]
  split_ifs
  · rw [BitVec.xor_assoc, BitVec.xor_self, BitVec.xor_zero]
  · rfl

/-! ### ENCODE by the outcome of its checks -/

/-- The state in which ENCODE leaves a message of type `t` and `n` payload bytes (R131). -/
def sealedState (c : Cipher) (nonce : Half) (t : FrameType) (n : Nat) (s : State) : State :=
  { s with
    buf := crypt (frameKeystream c s nonce) (frameBytes t n) (buildPlain t n nonce s.msgAddr s.buf)
    frameLen := BitVec.ofNat 8 (frameBytes t n)
    msgHdr := { s.msgHdr with nonce := nonce }
    draws := s.draws + 1
    result := ⟨.ok, 0x11, BitVec.ofNat 16 (frameBytes t n)⟩ }

theorem encodeWith_of_error {s : State} {code : ResultCode} (h : encodeChecks s = .error code) (c : Cipher)
    (nonce : Half) : encodeWith c nonce s = { s with result := ⟨code, 0x11, 0⟩ } := by
  rw [encodeWith, h]
  exact s.report_zero 0x11 code

theorem encodeWith_of_ok {s : State} {t : FrameType} {n : Nat} (h : encodeChecks s = .ok (t, n)) (c : Cipher)
    (nonce : Half) : encodeWith c nonce s = sealedState c nonce t n s := by
  rw [encodeWith, h]
  rfl

/-- ENCODE returns OK only with a sealed frame (R132). -/
theorem encodeChecks_of_result_ok {c : Cipher} {nonce : Half} {s : State}
    (h : (encodeWith c nonce s).result.code = .ok) :
    ∃ t n, encodeChecks s = .ok (t, n) ∧ encodeWith c nonce s = sealedState c nonce t n s := by
  rcases encodeWith_cases c nonce s with ⟨code, hne, _, e⟩ | ⟨t, n, hchecks, e⟩
  · rw [e] at h
    exact absurd h hne
  · exact ⟨t, n, hchecks, e⟩

/-- What the checks let through has the type that MSG_HDR names. -/
theorem type_of_encodeChecks_ok {s : State} {t : FrameType} {n : Nat} (h : encodeChecks s = .ok (t, n)) :
    s.msgHdr.type = t.code :=
  (frameTypeOf_eq_some_iff _ t).mp (encodeChecks_ok h).1

theorem eq_standard_of_type_zero {s : State} {t : FrameType} {n : Nat} (h : encodeChecks s = .ok (t, n))
    (h0 : s.msgHdr.type = 0) : t = .standard := by
  rw [type_of_encodeChecks_ok h] at h0
  cases t with
  | standard => rfl
  | ack => exact absurd h0 (by decide)

theorem eq_ack_of_type_one {s : State} {t : FrameType} {n : Nat} (h : encodeChecks s = .ok (t, n))
    (h1 : s.msgHdr.type = 1) : t = .ack := by
  rw [type_of_encodeChecks_ok h] at h1
  cases t with
  | standard => exact absurd h1 (by decide)
  | ack => rfl

/-- Settles O36: the checks, in their order. -/
theorem encodeRefusalsWriteOnlyResult : Obligations.EncodeRefusalsWriteOnlyResult := by
  intro s
  have refuse {code : ResultCode} (h : encodeChecks s = .error code) :
      exec .encode s = .next { s with result := ⟨code, 0x11, 0⟩ } := by
    rw [exec_encode, encodeWith_of_error h]
  refine ⟨fun h0 h1 => refuse ?_, fun h0 hlen => refuse ?_, fun htype hdest => refuse ?_⟩
  · rw [encodeChecks_eq, if_neg h0, if_neg h1]
  · rw [encodeChecks_eq, if_pos h0, if_pos hlen]
  · have hbad := (badDest_eq_true_iff s.msgAddr.dest).mpr hdest
    rw [encodeChecks_eq]
    rcases htype with ⟨h0, hlen⟩ | h1
    · rw [if_pos h0, if_neg (Nat.not_lt.mpr hlen), if_pos hbad]
    · rw [if_neg (by simp [h1]), if_pos h1, if_pos hbad]

/-- A message that R131 accepts passes the checks. -/
theorem encodeChecks_of_encodeAccepts {s : State} {ft : FrameType} {n size : Nat} (h : encodeAccepts s ft n size) :
    encodeChecks s = .ok (ft, n) ∧ n ≤ Params.maxPayload ∧ size = frameBytes ft n := by
  obtain ⟨hzero, hrange, hmsg⟩ := h
  have hdest : ¬ badDest s.msgAddr.dest = true := by
    rw [badDest_eq_true_iff]
    exact not_or.mpr ⟨hzero, hrange⟩
  rw [encodeChecks_eq]
  cases ft with
  | standard =>
    obtain ⟨htype, rfl, hlen, hsize⟩ := hmsg
    exact ⟨by rw [if_pos htype, if_neg (Nat.not_lt.mpr hlen), if_neg hdest], hlen, hsize⟩
  | ack =>
    obtain ⟨htype, rfl, hsize⟩ := hmsg
    exact ⟨by rw [if_neg (by simp [htype]), if_pos htype, if_neg hdest], Nat.zero_le _, hsize⟩

/-- Every byte of FRAME_BUF once the plaintext frame is encrypted: the header in plaintext, the rest of the frame under
the keystream (R131). -/
theorem crypt_buildPlain_read (ks : Nat → Byte) (s : State) {t : FrameType} {n : Nat} (nonce : Half) (i : Nat)
    (hn : n ≤ Params.maxPayload) :
    (crypt ks (frameBytes t n) (buildPlain t n nonce s.msgAddr s.buf)).read i =
      if i < 6 then sealedByte s t n (frameBytes t n) nonce i
      else if i < frameBytes t n then sealedByte s t n (frameBytes t n) nonce i ^^^ ks (i - 6)
      else s.buf.read i := by
  have hsize := (frameBytes_bounds (t := t) hn).1
  rw [crypt_read, buildPlain_read s nonce i hn]
  by_cases h6 : i < 6
  · rw [if_neg (by omega), if_pos h6, if_pos (by omega)]
  · rw [if_neg h6]
    by_cases hi : i < frameBytes t n
    · rw [if_pos (by omega), if_pos hi, if_pos hi]
    · rw [if_neg (by omega), if_neg hi, if_neg hi]

/-- Settles O37: the checks pass, and the frame reads byte by byte as it was built and encrypted. -/
theorem encodeBuildsTheSealedFrame : Obligations.EncodeBuildsTheSealedFrame := by
  intro s ft n size h
  obtain ⟨hchecks, hn, rfl⟩ := encodeChecks_of_encodeAccepts h
  rw [exec_encode, encodeWith_of_ok hchecks]
  exact ⟨_, rfl, rfl, fun i => crypt_buildPlain_read _ s _ i hn⟩

/-- Settles O40: both sizes are that of a frame with the payload the checks let through. -/
theorem encodeAndFrameSizeAgree : Obligations.EncodeAndFrameSizeAgree := by
  intro s t h hok
  rw [exec_encode] at h
  cases h
  obtain ⟨ft, n, hchecks, e⟩ := encodeChecks_of_result_ok hok
  obtain ⟨htype, rfl, hn, _⟩ := encodeChecks_ok hchecks
  have hsize := (frameBytes_bounds (t := ft) hn).2
  rw [exec_frameSize, execFrameSize_of_payloadLen s htype hn, e]
  refine ⟨_, rfl, rfl, rfl, ?_⟩
  simp only [sealedState, BitVec.toNat_ofNat]
  omega

/-! ### What ENCODE reads -/

/-- An update of the state that ENCODE's checks do not see, that leaves RESULT alone and that a sealed frame goes with,
goes with ENCODE. -/
theorem encodeWith_update {c : Cipher} {nonce : Half} {s : State} (f : State → State)
    (hchecks : encodeChecks (f s) = encodeChecks s)
    (hresult : ∀ r, { f s with result := r } = f { s with result := r })
    (hseal : ∀ t n, encodeChecks s = .ok (t, n) → sealedState c nonce t n (f s) = f (sealedState c nonce t n s)) :
    encodeWith c nonce (f s) = f (encodeWith c nonce s) := by
  cases h : encodeChecks s with
  | error code => rw [encodeWith_of_error (hchecks.trans h), encodeWith_of_error h, hresult]
  | ok p => rw [encodeWith_of_ok (hchecks.trans h), encodeWith_of_ok h, hseal _ _ h]

/-- Settles O39: the fields in question reach neither the checks nor the frame. -/
theorem encodeIgnoresTheFieldsItDoesNotCheck : Obligations.EncodeIgnoresTheFieldsItDoesNotCheck := by
  refine ⟨fun s t id seed h => ?_, fun s t x htype h => ?_, fun s t x htype h => ?_⟩
  · cases h
    exact congrArg _ (encodeWith_update (fun s => { s with cfgId := ⟨id, s.cfgId.groupId⟩, crcSeed := seed })
      rfl (fun _ => rfl) fun _ _ _ => rfl)
  · cases h
    refine congrArg _ (encodeWith_update (fun s => { s with msgAddr := { s.msgAddr with exp := x } })
      rfl (fun _ => rfl) fun ft n hchecks => ?_)
    obtain rfl := eq_standard_of_type_zero hchecks htype
    rfl
  · cases h
    have h1 : ¬ s.msgHdr.type = 0 := by simp [htype]
    refine congrArg _ (encodeWith_update (fun s => { s with msgHdr := { s.msgHdr with len := x } })
      ?_ (fun _ => rfl) fun _ _ _ => rfl)
    rw [encodeChecks_eq, encodeChecks_eq, if_neg h1, if_neg h1]

/-! ### DECODE by the outcome of its checks -/

/-- FRAME_BUF once DECODE has decrypted it (R137). -/
def decrypted (c : Cipher) (s : State) : Memory :=
  crypt (frameKeystream c s (frameNonce s.buf)) s.frameLen.toNat s.buf

/-- The CRC field of the decrypted frame is the CRC of the bytes before it (R137). -/
def decryptedCrcOk (c : Cipher) (s : State) : Prop :=
  frameCrc (decrypted c s) s.frameLen.toNat = crcField (decrypted c s) s.frameLen.toNat

theorem frameLen_toNat_eq_zero_iff (s : State) : s.frameLen.toNat = 0 ↔ s.frameLen = 0 := by
  rw [BitVec.toNat_eq]
  rfl

theorem decodeWith_of_error {s : State} {code : ResultCode} (h : decodeChecks s = .error code) (c : Cipher) :
    decodeWith c s = { s with result := ⟨code, 0x12, 0⟩ } := by
  rw [decodeWith, h]
  exact s.report_zero 0x12 code

section
variable {c : Cipher} {s : State} {t : FrameType} {n : Nat} (h : decodeChecks s = .ok (t, n))
include h

theorem decodeWith_of_crc_wrong (hcrc : ¬ decryptedCrcOk c s) :
    decodeWith c s = { s with buf := decrypted c s, result := ⟨.crc, 0x12, 0⟩ } := by
  simp only [decodeWith, h]
  exact if_pos hcrc

theorem decodeWith_of_not_accepted (hcrc : decryptedCrcOk c s)
    (hdest : accepts t s.cfgId.myId ((decrypted c s).read 6) = false) :
    decodeWith c s = { s with buf := decrypted c s, result := ⟨.notForMe, 0x12, 0⟩ } := by
  simp only [decodeWith, h]
  exact (if_neg (not_not_intro hcrc)).trans (if_pos hdest)

theorem decodeWith_of_accepted (hcrc : decryptedCrcOk c s)
    (hdest : accepts t s.cfgId.myId ((decrypted c s).read 6) = true) :
    decodeWith c s =
      { s with
        buf := decrypted c s
        msgHdr := ⟨t.code, BitVec.ofNat 8 n, frameNonce s.buf⟩
        msgAddr := ⟨(decrypted c s).read 6, (decrypted c s).read 7, (decrypted c s).read 8,
          decodedExp t (decrypted c s)⟩
        result := ⟨.ok, 0x12, s.frameLen.setWidth 16⟩ } := by
  simp only [decodeWith, h]
  refine (if_neg (not_not_intro hcrc)).trans ((if_neg (Bool.not_eq_false _ ▸ hdest)).trans ?_)
  rw [BitVec.ofNat_toNat]
  rfl

/-- Whatever the result after the checks, FRAME_BUF holds the decrypted bytes (R145). -/
theorem decodeWith_buf : (decodeWith c s).buf = decrypted c s := by
  by_cases hcrc : decryptedCrcOk c s
  · cases hdest : accepts t s.cfgId.myId ((decrypted c s).read 6) with
    | false => rw [decodeWith_of_not_accepted h hcrc hdest]
    | true => rw [decodeWith_of_accepted h hcrc hdest]
  · rw [decodeWith_of_crc_wrong h hcrc]

end

/-- Settles O41: the checks, in their order. -/
theorem decodeHeaderChecksInOrder : Obligations.DecodeHeaderChecksInOrder := by
  intro s
  have refuse {code : ResultCode} (h : decodeChecks s = .error code) :
      exec .decode s = .next { s with result := ⟨code, 0x12, 0⟩ } := by
    rw [exec_decode, decodeWith_of_error h]
  simp only [ne_eq, ← frameLen_toNat_eq_zero_iff]
  refine ⟨fun h => refuse ?_, fun h hv => refuse ?_, fun h hv h0 h1 => refuse ?_, fun h hv h0 hsize => refuse ?_,
    fun h hv h1 hsize => refuse ?_⟩
  · rw [decodeChecks_eq, if_pos h]
  · rw [decodeChecks_eq, if_neg h, if_pos hv]
  · rw [decodeChecks_eq, if_neg h, if_neg (not_not_intro hv), if_neg h0, if_neg h1]
  · rw [decodeChecks_eq, if_neg h, if_neg (not_not_intro hv), if_pos h0, if_pos hsize]
  · rw [decodeChecks_eq, if_neg h, if_neg (not_not_intro hv), if_neg (by simp [h1]), if_pos h1, if_pos hsize]

/-- A header that R137 accepts passes the checks. -/
theorem decodeChecks_of_headerAccepts {s : State} {ft : FrameType} {n : Nat} (h : headerAccepts s ft n) :
    decodeChecks s = .ok (ft, n) := by
  obtain ⟨hv, hmsg⟩ := h
  rw [decodeChecks_eq]
  cases ft with
  | standard =>
    obtain ⟨h0, rfl, hn, hsize⟩ := hmsg
    rw [if_neg (by omega), if_neg (not_not_intro hv), if_pos h0, if_neg (by omega)]
  | ack =>
    obtain ⟨h1, rfl, hsize⟩ := hmsg
    rw [if_neg (by omega), if_neg (not_not_intro hv), if_neg (by simp [h1]), if_pos h1,
      if_neg (not_not_intro hsize)]

/-- The destinations DECODE accepts (R141). -/
theorem accepts_eq_true_iff (t : FrameType) (myId d : Byte) :
    accepts t myId d = true ↔ d = myId ∨ (t = .standard ∧ d = 0xFF) := by
  cases t <;> simp [accepts]

/-- The bytes DECODE decrypts on this hardware (R127). -/
theorem decrypted_read (s : State) (i : Nat) : (decrypted Config.cipher s).read i = openedByte s i := opened_read s i

theorem decryptedCrcOk_iff (s : State) : decryptedCrcOk Config.cipher s ↔ openedCrcOk s := by
  unfold decryptedCrcOk openedCrcOk crcField
  rw [decrypted_read, decrypted_read, decrypted, frameCrc_opened]
  rfl

/-- Settles O42: the checks pass, and each of the three outcomes leaves its state. -/
theorem decodeOpensTheFrame : Obligations.DecodeOpensTheFrame := by
  intro s ft n hheader
  have h := decodeChecks_of_headerAccepts hheader
  have hdest : accepts ft s.cfgId.myId ((decrypted Config.cipher s).read 6) = true ↔ openedForMe s ft := by
    rw [accepts_eq_true_iff, decrypted_read]
    rfl
  have hbuf := decodeWith_buf (c := Config.cipher) h
  refine ⟨_, exec_decode s, fun i => by rw [hbuf, decrypted_read], fun hcrc => ?_, fun hcrc hme => ?_,
    fun hcrc hme => ?_⟩
  · rw [decodeWith_of_crc_wrong h ((decryptedCrcOk_iff s).not.mpr hcrc)]
  · rw [decodeWith_of_not_accepted h ((decryptedCrcOk_iff s).mpr hcrc)
      (Bool.eq_false_iff.mpr (hdest.not.mpr hme))]
  · rw [decodeWith_of_accepted h ((decryptedCrcOk_iff s).mpr hcrc) (hdest.mpr hme)]
    simp only [decrypted_read]
    cases ft with
    | standard => rfl
    | ack => simp only [decodedExp, decrypted_read]; rfl

/-- Before decryption DECODE refuses with LENGTH, VERSION or TYPE, writing RESULT alone; after it ends with OK, CRC or
NOT_FOR_ME (R145). -/
theorem decodeWith_result_cases (c : Cipher) (s : State) :
    (∃ code, (code = .length ∨ code = .version ∨ code = .type) ∧ decodeChecks s = .error code ∧
      decodeWith c s = { s with result := ⟨code, 0x12, 0⟩ }) ∨
    (∃ t n, decodeChecks s = .ok (t, n) ∧
      ((decodeWith c s).result.code = .ok ∨ (decodeWith c s).result.code = .crc ∨
        (decodeWith c s).result.code = .notForMe)) := by
  rcases decodeWith_cases c s with ⟨code, hcode, herr, e⟩ | ⟨t, n, _, h, _, ⟨_, e⟩ | ⟨_, _, e⟩ | ⟨_, _, e⟩⟩
  · exact .inl ⟨code, hcode, herr, e.trans (s.report_zero 0x12 code)⟩
  · exact .inr ⟨t, n, h, by rw [e]; exact .inr (.inl rfl)⟩
  · exact .inr ⟨t, n, h, by rw [e]; exact .inr (.inr rfl)⟩
  · exact .inr ⟨t, n, h, by rw [e]; exact .inl rfl⟩

/-- A result that DECODE gives only after decryption: the checks have passed. -/
theorem decodeChecks_of_result {c : Cipher} {s : State}
    (hres : (decodeWith c s).result.code = .ok ∨ (decodeWith c s).result.code = .crc ∨
      (decodeWith c s).result.code = .notForMe) : ∃ t n, decodeChecks s = .ok (t, n) := by
  rcases decodeWith_result_cases c s with ⟨code, hcode, _, e⟩ | ⟨t, n, h, _⟩
  · rw [e] at hres
    rcases hcode with rfl | rfl | rfl <;> simp at hres
  · exact ⟨t, n, h⟩

/-- Settles O44: a wrong version nibble is refused before anything else is read, and a right one is not refused. -/
theorem versionMismatchIsDecidedFirst : Obligations.VersionMismatchIsDecidedFirst := by
  intro s t hlen h
  by_cases hv : (s.buf.read 0).extractLsb' 4 4 = 1#4
  · have hne : t.result.code ≠ .version := by
      rw [exec_decode] at h
      cases h
      intro hcode
      rcases decodeWith_result_cases Config.cipher s with ⟨code, _, herr, e⟩ | ⟨_, _, _, hres⟩
      · rw [e] at hcode
        subst hcode
        rw [decodeChecks_eq, if_neg ((frameLen_toNat_eq_zero_iff s).not.mpr hlen), if_neg (not_not_intro hv)] at herr
        split_ifs at herr <;> cases herr
      · simp [hcode] at hres
    exact ⟨iff_of_false hne (not_not_intro hv), fun hcode => absurd hcode hne⟩
  · have ht := (decodeHeaderChecksInOrder s).2.1 hlen hv
    cases h.symm.trans ht
    exact ⟨iff_of_true rfl hv, fun _ => rfl⟩

/-- The checks read FRAME_LEN and the first two bytes, and nothing else (R137). -/
theorem decodeChecks_congr {s u : State} (hlen : u.frameLen = s.frameLen) (h0 : u.buf.read 0 = s.buf.read 0)
    (h1 : u.buf.read 1 = s.buf.read 1) : decodeChecks u = decodeChecks s := by
  simp only [decodeChecks, hlen, h0, h1]

theorem frameKeystream_congr {s u : State} (hkey : u.key = s.key) (hgroup : u.cfgId.groupId = s.cfgId.groupId)
    (c : Cipher) : frameKeystream c u = frameKeystream c s := by
  funext nonce
  simp only [frameKeystream, State.keyValue, hkey, hgroup]

/-- The nonce stands before the encrypted bytes, so decrypting the frame leaves it. -/
theorem frameNonce_decrypted (c : Cipher) (s : State) : frameNonce (decrypted c s) = frameNonce s.buf := by
  simp only [frameNonce, decrypted, crypt_read_outside _ _ (.inl (by decide : 4 < 6)),
    crypt_read_outside _ _ (.inl (by decide : 5 < 6))]

/-- Decrypting what is already decrypted turns every byte back (R128). -/
theorem decrypted_read_twice {c : Cipher} {s t : State} (hlen : t.frameLen = s.frameLen) (hkey : t.key = s.key)
    (hcfg : t.cfgId = s.cfgId) (hbuf : t.buf = decrypted c s) (i : Nat) :
    (decrypted c t).read i = s.buf.read i := by
  have hks : frameKeystream c t = frameKeystream c s := frameKeystream_congr hkey (by rw [hcfg]) c
  rw [decrypted, hks, hlen, hbuf, frameNonce_decrypted]
  exact (cryptIsAnInvolution _ _ _ i).2

/-- Settles O45: after the checks the keystream depends on nothing that DECODE writes, so a second DECODE decrypts the
same bytes with it. -/
theorem decodeFailureSideEffects : Obligations.DecodeFailureSideEffects := by
  refine ⟨fun s t ht hcode => ?_, fun s t ht hcode => ?_, fun s t u ht hcode hu i => ?_⟩
  · cases ht
    rcases decodeWith_result_cases Config.cipher s with ⟨code, _, _, e⟩ | ⟨_, _, _, hres⟩
    · rw [e]
    · rcases hres with e | e | e <;> simp [e] at hcode
  · obtain ⟨hframe, hmsg, _⟩ := decodeFrame s t ht
    obtain ⟨hhdr, haddr⟩ := hmsg (by rcases hcode with e | e <;> simp [e])
    rw [hhdr, haddr] at hframe
    refine ⟨hframe, fun i => ?_⟩
    cases ht
    obtain ⟨ft, n, h⟩ := decodeChecks_of_result (.inr hcode)
    rw [decodeWith_buf h, decrypted_read]
  · obtain ⟨hframe, _, hhead⟩ := decodeFrame s t ht
    have hlen : t.frameLen = s.frameLen := by rw [hframe]
    have hchecks : decodeChecks t = decodeChecks s :=
      decodeChecks_congr hlen (hhead 0 (.inl (by decide))) (hhead 1 (.inl (by decide)))
    cases ht
    cases hu
    obtain ⟨ft, n, h⟩ := decodeChecks_of_result hcode
    rw [decodeWith_buf (hchecks.trans h)]
    exact decrypted_read_twice hlen (by rw [hframe]) (by rw [hframe]) (decodeWith_buf h) i

/-! ### What the codec does not read -/

/-- A state that differs from `s` in the queues and in the registers of the arbiter and of CRC_COMPUTE alone. -/
def State.withArbiter (hot cold : Queue) (st : BitVec 4) (seed : Half) (e : EvtOut) (s : State) : State :=
  { s with hotq := hot, coldq := cold, smState := st, crcSeed := seed, evtOut := e }

theorem decodeWith_withArbiter (c : Cipher) (hot cold : Queue) (st : BitVec 4) (seed : Half) (e : EvtOut) (s : State) :
    decodeWith c (s.withArbiter hot cold st seed e) = (decodeWith c s).withArbiter hot cold st seed e := by
  have hchecks : decodeChecks (s.withArbiter hot cold st seed e) = decodeChecks s := rfl
  cases h : decodeChecks s with
  | error code => rw [decodeWith_of_error (hchecks.trans h), decodeWith_of_error h]; rfl
  | ok p =>
    by_cases hcrc : decryptedCrcOk c s
    · cases hdest : accepts p.1 s.cfgId.myId ((decrypted c s).read 6) with
      | false =>
        rw [decodeWith_of_not_accepted h hcrc hdest, decodeWith_of_not_accepted (hchecks.trans h) hcrc hdest]; rfl
      | true => rw [decodeWith_of_accepted h hcrc hdest, decodeWith_of_accepted (hchecks.trans h) hcrc hdest]; rfl
    · rw [decodeWith_of_crc_wrong h hcrc, decodeWith_of_crc_wrong (hchecks.trans h) hcrc]; rfl

/-- Settles O48: neither the checks nor the frame hold any of the five pieces. -/
theorem codecIgnoresQueuesAndArbiter : Obligations.CodecIgnoresQueuesAndArbiter := by
  intro i s hot cold st seed e hi
  rcases hi with rfl | rfl
  · have hframe := (encodeFrame s _ (exec_encode s)).1
    refine ⟨_, exec_encode s, by rw [hframe], by rw [hframe], by rw [hframe], by rw [hframe], by rw [hframe], ?_⟩
    exact congrArg _ (encodeWith_update (State.withArbiter hot cold st seed e) rfl (fun _ => rfl) fun _ _ _ => rfl)
  · have hframe := (decodeFrame s _ (exec_decode s)).1
    refine ⟨_, exec_decode s, by rw [hframe], by rw [hframe], by rw [hframe], by rw [hframe], by rw [hframe], ?_⟩
    exact congrArg _ (decodeWith_withArbiter Config.cipher hot cold st seed e s)

end Sys2Proof.Machine
end

section
/-! PROOF. A frame that ENCODE built, received with or without a flipped bit (41_frame_codec.md R146, R147): outside the
nonce, errors of the received bytes are the errors of the decrypted ones. -/

namespace Sys2Proof.Machine

open Sys2Proof

/-! ### The CRC of a frame given by its bytes -/

theorem frameCrc_eq_crcOfBytes (m : Memory) (size : Nat) : frameCrc m size = crcOfBytes m.read (size - 2) := by
  simp only [frameCrc, crcOfBytes, Memory.bytes, Nat.zero_add]

theorem crcOfBytes_congr {f g : Nat → Byte} {k : Nat} (h : ∀ i, i < k → f i = g i) :
    crcOfBytes f k = crcOfBytes g k := by
  rw [crcOfBytes, List.map_congr_left fun i hi => h i (List.mem_range.mp hi), crcOfBytes]

/-- The error of one flipped bit: bit `k` of byte `j`. -/
def bitError (j k i : Nat) : Byte := if i = j then 1#8 <<< k else 0#8

theorem bitError_same (j k : Nat) : bitError j k j = 1#8 <<< k := if_pos rfl

theorem bitError_other {i j : Nat} (k : Nat) (h : i ≠ j) : bitError j k i = 0#8 := if_neg h

theorem xor_bitError_other {i j : Nat} (b : Byte) (k : Nat) (h : i ≠ j) : b ^^^ bitError j k i = b := by
  rw [bitError_other k h, BitVec.xor_zero]

theorem xor_bitError_ne (b : Byte) (j : Nat) {k : Nat} (hk : k < 8) : b ^^^ bitError j k j ≠ b := by
  intro h
  have hbit := congrArg (BitVec.getLsbD · k) h
  simp [bitError_same, getLsbD_flip b hk] at hbit

/-- One flipped bit among the bytes it covers changes the CRC. -/
theorem crcOfBytes_bitError_ne (f : Nat → Byte) {j k m : Nat} (hj : j < m) (hk : k < 8) :
    crcOfBytes (fun i => f i ^^^ bitError j k i) m ≠ crcOfBytes f m := by
  obtain ⟨x, y, hxy⟩ := List.append_of_mem (List.mem_range.mpr hj)
  have hnodup : (j :: (x ++ y)).Nodup := List.nodup_middle.mp (hxy ▸ List.nodup_range)
  obtain ⟨hjx, hjy⟩ := not_or.mp (List.mem_append.not.mp (List.nodup_cons.mp hnodup).1)
  have hother : ∀ i, i ≠ j → f i ^^^ bitError j k i = f i := fun i => xor_bitError_other _ k
  have hx : x.map (fun i => f i ^^^ bitError j k i) = x.map f :=
    List.map_congr_left fun i hi => hother i (ne_of_mem_of_not_mem hi hjx)
  have hy : y.map (fun i => f i ^^^ bitError j k i) = y.map f :=
    List.map_congr_left fun i hi => hother i (ne_of_mem_of_not_mem hi hjy)
  rw [crcOfBytes, crcOfBytes, hxy, List.map_append, List.map_append, List.map_cons, List.map_cons, hx, hy,
    bitError_same]
  exact (crcSeesEverySingleBitFlip _ _ (f j) k _ hk).symm

/-- Byte 0 of a frame: the version nibble, then the type (R121). -/
theorem plainByte_zero (s : State) (t : FrameType) (n : Nat) (nonce : Half) :
    plainByte s t n nonce 0 = if t = .standard then 0x10 else 0x11 := rfl

/-- Behind the nine bytes of its head a Standard frame carries the payload (R131). -/
theorem plainByte_payload (s : State) (n : Nat) (nonce : Half) {i : Nat} (hi : 9 ≤ i) :
    plainByte s .standard n nonce i = s.buf.read i := by
  unfold plainByte
  iterate 9 rw [if_neg (by omega)]
  exact if_neg (by simp)

/-- Before its CRC field the sealed frame is the plaintext frame. -/
theorem sealedByte_of_lt (s : State) (t : FrameType) (n : Nat) {size : Nat} (nonce : Half) {i : Nat}
    (hi : i < size - 2) : sealedByte s t n size nonce i = plainByte s t n nonce i := by
  rw [sealedByte, if_neg (by omega), if_neg (by omega)]

/-- The CRC field of a sealed frame holds the CRC of the bytes before it (R122). -/
theorem crcOfBytes_sealedByte (s : State) (t : FrameType) (n : Nat) {size : Nat} (nonce : Half) (hsize : 2 ≤ size) :
    crcOfBytes (sealedByte s t n size nonce) (size - 2) =
      sealedByte s t n size nonce (size - 2) ++ sealedByte s t n size nonce (size - 1) := by
  rw [crcOfBytes_congr fun i => sealedByte_of_lt s t n nonce, sealedByte, if_pos rfl, sealedByte, if_neg (by omega),
    if_pos rfl]
  exact (BitVec.extractLsb'_append_extractLsb' (w := 8) (len := 8)).symm

/-! ### A frame in transit -/

/-- `u` holds the frame `t` holds, each byte with the errors `d` gives, and the key and group it was sealed under. -/
structure CarriesWithErrors (d : Nat → Byte) (t u : State) : Prop where
  read : ∀ i, i < t.frameLen.toNat → u.buf.read i = t.buf.read i ^^^ d i
  frameLen : u.frameLen = t.frameLen
  key : u.key = t.key
  group : u.cfgId.groupId = t.cfgId.groupId

/-- No error anywhere. -/
def noError (_ : Nat) : Byte := 0#8

theorem carriesFrame.withErrors {t u : State} (h : carriesFrame t u) : CarriesWithErrors noError t u := by
  obtain ⟨hread, hlen, hkey, hgroup⟩ := h
  exact ⟨fun i hi => by rw [hread i hi, noError]; exact BitVec.xor_zero.symm, hlen, hkey, hgroup⟩

theorem carriesFlipped.withErrors {t u : State} {j k : Nat} (h : carriesFlipped t u j k) :
    CarriesWithErrors (bitError j k) t u := by
  obtain ⟨hread, hlen, hkey, hgroup⟩ := h
  refine ⟨fun i hi => ?_, hlen, hkey, hgroup⟩
  rw [hread i hi]
  by_cases hij : i = j
  · rw [if_pos hij, hij, bitError_same]
  · rw [if_neg hij, xor_bitError_other _ k hij]

section
variable {c : Cipher} {nonce : Half} {s u : State} {t : FrameType} {n : Nat} {d : Nat → Byte}
  (hchecks : encodeChecks s = .ok (t, n)) (hcarry : CarriesWithErrors d (sealedState c nonce t n s) u)
include hchecks

theorem bounds_of_encodeChecks_ok : n ≤ 244 ∧ 11 ≤ frameBytes t n ∧ frameBytes t n ≤ 255 := by
  obtain ⟨_, _, hn, _⟩ := encodeChecks_ok hchecks
  exact ⟨hn, frameBytes_bounds hn⟩

theorem sealedState_frameLen : (sealedState c nonce t n s).frameLen.toNat = frameBytes t n := by
  obtain ⟨_, _, hsize⟩ := bounds_of_encodeChecks_ok hchecks
  exact Nat.mod_eq_of_lt (by omega)

include hcarry

theorem CarriesWithErrors.frameLen_eq : u.frameLen.toNat = frameBytes t n := by
  rw [hcarry.frameLen, sealedState_frameLen hchecks]

/-- The header travels in plaintext. -/
theorem CarriesWithErrors.read_header {i : Nat} (hi : i < 6) : u.buf.read i = plainByte s t n nonce i ^^^ d i := by
  obtain ⟨hn, hsize, _⟩ := bounds_of_encodeChecks_ok hchecks
  rw [hcarry.read i (by rw [sealedState_frameLen hchecks]; omega), sealedState, crypt_buildPlain_read _ s nonce i hn,
    if_pos hi, sealedByte_of_lt s t n nonce (by omega)]

variable (h4 : d 4 = 0#8) (h5 : d 5 = 0#8)
include h4 h5

theorem CarriesWithErrors.frameNonce_eq : frameNonce u.buf = nonce := by
  rw [frameNonce, hcarry.read_header hchecks (by decide), hcarry.read_header hchecks (by decide), h4, h5]
  refine (congrArg₂ be16 BitVec.xor_zero BitVec.xor_zero).trans ?_
  exact BitVec.extractLsb'_append_extractLsb'

/-- With the nonce intact, the decrypted frame is the sealed one with the errors of the received one. -/
theorem CarriesWithErrors.decrypted_read {i : Nat} (hi : i < frameBytes t n) :
    (decrypted c u).read i = sealedByte s t n (frameBytes t n) nonce i ^^^ d i := by
  obtain ⟨hn, _, _⟩ := bounds_of_encodeChecks_ok hchecks
  have hks : frameKeystream c u = frameKeystream c s := frameKeystream_congr hcarry.key hcarry.group c
  have hread : u.buf.read i = (sealedState c nonce t n s).buf.read i ^^^ d i :=
    hcarry.read i (by rw [sealedState_frameLen hchecks]; exact hi)
  rw [decrypted, hcarry.frameNonce_eq hchecks h4 h5, hks, hcarry.frameLen_eq hchecks, crypt_read, hread, sealedState,
    crypt_buildPlain_read _ s nonce i hn]
  by_cases h6 : i < 6
  · rw [if_neg (by omega), if_pos h6]
  · rw [if_pos (by omega), if_neg h6, if_pos hi, BitVec.xor_assoc, BitVec.xor_assoc, BitVec.xor_comm (d i),
      ← BitVec.xor_assoc (frameKeystream c s nonce (i - 6)), BitVec.xor_self, BitVec.zero_xor]

omit h4 h5

/-- DECODE's checks pass on an intact header; in an Ack they do not read byte 1. -/
theorem CarriesWithErrors.decodeChecks_eq_ok (h0 : d 0 = 0#8) (h1 : t = .standard → d 1 = 0#8) :
    decodeChecks u = .ok (t, n) := by
  obtain ⟨hn, _, _⟩ := bounds_of_encodeChecks_ok hchecks
  obtain ⟨_, hpayload, _, _⟩ := encodeChecks_ok hchecks
  have hlen := hcarry.frameLen_eq hchecks
  have hbyte0 := hcarry.read_header hchecks (by decide : 0 < 6)
  have hbyte1 := hcarry.read_header hchecks (by decide : 1 < 6)
  rw [h0, BitVec.xor_zero, plainByte_zero] at hbyte0
  apply decodeChecks_of_headerAccepts
  unfold headerAccepts
  rw [hbyte0]
  cases t with
  | standard =>
    rw [h1 rfl, BitVec.xor_zero] at hbyte1
    refine ⟨by decide, by decide, ?_, hn, hlen⟩
    rw [hbyte1]
    exact (Nat.mod_eq_of_lt (by omega)).symm
  | ack => exact ⟨by decide, by decide, hpayload, hlen⟩

end

/-- A frame received as it was sealed decrypts to the sealed bytes. -/
theorem carriesFrame.decrypted_read {c : Cipher} {nonce : Half} {s u : State} {t : FrameType} {n i : Nat}
    (hchecks : encodeChecks s = .ok (t, n)) (hcarry : carriesFrame (sealedState c nonce t n s) u)
    (hi : i < frameBytes t n) : (decrypted c u).read i = sealedByte s t n (frameBytes t n) nonce i :=
  (hcarry.withErrors.decrypted_read hchecks rfl rfl hi).trans BitVec.xor_zero

/-- So it passes DECODE's CRC check. -/
theorem carriesFrame.crc_ok {c : Cipher} {nonce : Half} {s u : State} {t : FrameType} {n : Nat}
    (hchecks : encodeChecks s = .ok (t, n)) (hcarry : carriesFrame (sealedState c nonce t n s) u) :
    decryptedCrcOk c u := by
  obtain ⟨_, hsize, _⟩ := bounds_of_encodeChecks_ok hchecks
  rw [decryptedCrcOk, hcarry.withErrors.frameLen_eq hchecks, frameCrc_eq_crcOfBytes, crcField,
    hcarry.decrypted_read hchecks (by omega), hcarry.decrypted_read hchecks (by omega),
    crcOfBytes_congr fun i hi => hcarry.decrypted_read hchecks (by omega)]
  exact crcOfBytes_sealedByte s t n nonce (by omega)

/-- One flipped bit outside the nonce fails DECODE's CRC check: before the CRC field it changes the computed CRC, in the
field the stored one (R147). -/
theorem carriesFlipped.crc_wrong {c : Cipher} {nonce : Half} {s u : State} {t : FrameType} {n j k : Nat}
    (hchecks : encodeChecks s = .ok (t, n)) (hcarry : carriesFlipped (sealedState c nonce t n s) u j k) (hk : k < 8)
    (hj : j < frameBytes t n) (h4 : j ≠ 4) (h5 : j ≠ 5) : ¬ decryptedCrcOk c u := by
  obtain ⟨_, hsize, _⟩ := bounds_of_encodeChecks_ok hchecks
  have herr := hcarry.withErrors
  have hread : ∀ i, i < frameBytes t n →
      (decrypted c u).read i = sealedByte s t n (frameBytes t n) nonce i ^^^ bitError j k i :=
    fun i => herr.decrypted_read hchecks (bitError_other k h4.symm) (bitError_other k h5.symm)
  have hseal := crcOfBytes_sealedByte s t n nonce (size := frameBytes t n) (by omega)
  rw [decryptedCrcOk, herr.frameLen_eq hchecks, frameCrc_eq_crcOfBytes, crcField, hread _ (by omega),
    hread _ (by omega), crcOfBytes_congr fun i hi => hread i (by omega), be16]
  intro heq
  by_cases hfield : j < frameBytes t n - 2
  · rw [xor_bitError_other _ k (by omega), xor_bitError_other _ k (by omega), ← hseal] at heq
    exact crcOfBytes_bitError_ne _ hfield hk heq
  · rw [crcOfBytes_congr fun i hi => xor_bitError_other _ k (by omega), hseal] at heq
    by_cases hlast : j = frameBytes t n - 1
    · rw [xor_bitError_other _ k (by omega : frameBytes t n - 2 ≠ j), BitVec.append_right_inj, ← hlast] at heq
      exact xor_bitError_ne _ j hk heq.symm
    · have hj2 : j = frameBytes t n - 2 := by omega
      rw [xor_bitError_other _ k (by omega : frameBytes t n - 1 ≠ j), BitVec.append_left_inj, ← hj2] at heq
      exact xor_bitError_ne _ j hk heq.symm

/-! ### Round trip and tamper detection -/

/-- Settles O46: the frame decrypts to the one that was sealed, so its CRC is right and its bytes are the message's. -/
theorem decodeOfEncodeReturnsTheMessage : Obligations.DecodeOfEncodeReturnsTheMessage := by
  refine ⟨fun s => ⟨exec_encode s, exec_decode s⟩, fun c nonce s u hok hcarry => ?_⟩
  obtain ⟨t, n, hchecks, e⟩ := encodeChecks_of_result_ok hok
  rw [e] at hcarry ⊢
  have hclean := hcarry.withErrors
  obtain ⟨_, hpayload, _⟩ := encodeChecks_ok hchecks
  obtain ⟨_, hsize, _⟩ := bounds_of_encodeChecks_ok hchecks
  have htype := type_of_encodeChecks_ok hchecks
  have hdec := hclean.decodeChecks_eq_ok hchecks rfl fun _ => rfl
  have hcrc := hcarry.crc_ok hchecks
  have hread : ∀ i, i < frameBytes t n - 2 → (decrypted c u).read i = plainByte s t n nonce i := fun i hi =>
    (hcarry.decrypted_read hchecks (by omega)).trans (sealedByte_of_lt s t n nonce hi)
  have h6 : (decrypted c u).read 6 = s.msgAddr.dest := hread 6 (by omega)
  refine ⟨fun hdest => ?_, fun hack hdest hid => ?_⟩
  · have hacc : accepts t u.cfgId.myId ((decrypted c u).read 6) = true := by
      rw [accepts_eq_true_iff, h6]
      exact hdest.imp Eq.symm fun ⟨hstd, hcast⟩ => ⟨eq_standard_of_type_zero hchecks hstd, hcast⟩
    have h7 : (decrypted c u).read 7 = s.msgAddr.src := hread 7 (by omega)
    have h8 : (decrypted c u).read 8 = s.msgAddr.seq := hread 8 (by omega)
    rw [decodeWith_of_accepted hdec hcrc hacc, h6, h7, h8, hclean.frameNonce_eq hchecks rfl rfl, htype,
      ← BitVec.ofNat_toNat 16 u.frameLen, hclean.frameLen_eq hchecks]
    cases t with
    | standard =>
      subst hpayload
      refine ⟨rfl, ?_, rfl, fun _ i h9 hi => ?_⟩
      · rw [payloadLen, BitVec.ofNat_toNat, BitVec.setWidth_eq]
        rfl
      · have : i < frameBytes .standard s.msgHdr.len.toNat - 2 := by simp only [frameBytes]; omega
        exact (hread i this).trans (plainByte_payload s _ nonce h9)
    | ack =>
      subst hpayload
      have h9 : (decrypted c u).read 9 = s.msgAddr.exp := hread 9 (show 9 < 12 - 2 by decide)
      exact ⟨rfl, rfl, by rw [decodedExp, h9]; rfl, fun h => absurd h (by decide)⟩
  · obtain rfl := eq_ack_of_type_one hchecks hack
    have hacc : accepts .ack u.cfgId.myId ((decrypted c u).read 6) = false := by
      rw [h6, hdest]
      exact beq_eq_false_iff_ne.mpr (Ne.symm hid)
    rw [decodeWith_of_not_accepted hdec hcrc hacc]

/-- A flip in byte 1 of a Standard frame contradicts FRAME_LEN (R139). -/
theorem carriesFlipped.decodeChecks_eq_length {c : Cipher} {nonce : Half} {s u : State} {n k : Nat}
    (hchecks : encodeChecks s = .ok (.standard, n))
    (hcarry : carriesFlipped (sealedState c nonce .standard n s) u 1 k) (hk : k < 8) :
    decodeChecks u = .error .length := by
  have herr := hcarry.withErrors
  have hlen : u.frameLen.toNat = 11 + n := herr.frameLen_eq hchecks
  obtain ⟨hn, _, _⟩ := bounds_of_encodeChecks_ok hchecks
  have hbyte0 : u.buf.read 0 = 0x10 := by
    rw [herr.read_header hchecks (by decide), xor_bitError_other _ k (by decide), plainByte_zero, if_pos rfl]
  have hbyte1 : (u.buf.read 1).toNat ≠ n := by
    intro h
    have hne : u.buf.read 1 ≠ BitVec.ofNat 8 n := by
      rw [herr.read_header hchecks (by decide)]
      exact xor_bitError_ne _ 1 hk
    exact hne (BitVec.eq_of_toNat_eq (h.trans (Nat.mod_eq_of_lt (by omega)).symm))
  rw [decodeChecks_eq, hbyte0, if_neg (by omega), if_neg (by decide), if_pos (by decide), if_pos (by omega)]

/-- Settles O47: the header decides alone whether the checks pass, and if they do the CRC is wrong. -/
theorem singleBitFlipsOutsideTheNonceAreRefused : Obligations.SingleBitFlipsOutsideTheNonceAreRefused := by
  intro c nonce s u j k hk hok hcarry
  obtain ⟨t, n, hchecks, e⟩ := encodeChecks_of_result_ok hok
  rw [e] at hcarry ⊢
  rw [sealedState_frameLen hchecks]
  obtain ⟨_, hsize, _⟩ := bounds_of_encodeChecks_ok hchecks
  have crc_of {t' : FrameType} {n' : Nat} (hdec : decodeChecks u = .ok (t', n')) (hj : j < frameBytes t n)
      (h4 : j ≠ 4) (h5 : j ≠ 5) : (decodeWith c u).result.code = .crc := by
    rw [decodeWith_of_crc_wrong hdec (hcarry.crc_wrong hchecks hk hj h4 h5)]
  have header_intact (h0 : j ≠ 0) (h1 : t = .standard → j ≠ 1) : decodeChecks u = .ok (t, n) :=
    hcarry.withErrors.decodeChecks_eq_ok hchecks (bitError_other k h0.symm) fun ht => bitError_other k (h1 ht).symm
  refine ⟨fun h6 hj => ?_, fun h0 => ?_, fun h1 hstd => ?_, fun h1 hack => ?_, fun h23 => ?_⟩
  · exact crc_of (header_intact (by omega) fun _ => by omega) hj (by omega) (by omega)
  · rcases decodeWith_result_cases c u with ⟨code, hcode, _, e'⟩ | ⟨t', n', hdec, _⟩
    · rw [e']
      rcases hcode with rfl | rfl | rfl <;> simp
    · exact .inr (.inr (.inr (crc_of hdec (by omega) (by omega) (by omega))))
  · obtain rfl := eq_standard_of_type_zero hchecks hstd
    subst h1
    rw [decodeWith_of_error (hcarry.decodeChecks_eq_length hchecks hk)]
  · obtain rfl := eq_ack_of_type_one hchecks hack
    exact crc_of (header_intact (by omega) nofun) (by omega) (by omega) (by omega)
  · exact crc_of (header_intact (by omega) fun _ => by omega) (by omega) (by omega) (by omega)

end Sys2Proof.Machine
end

section
/-! PROOF. CRC_COMPUTE and the laws of its engine (42_crc_engine.md): the register after each bit of a range, its
linearity over GF(2), and the CRC of a concatenation. -/

namespace Sys2Proof.Machine

open Sys2Proof

/-! ### The command by its range check (R175) -/

theorem exec_crcCompute_of_range (ps : PolySel) {off len : Nat} (s : State) (h : off + len > 256) :
    exec (.crcCompute ps off len) s = .next { s with result := ⟨.range, 0x01, 0⟩ } := by
  rw [exec_crcCompute, execCrcCompute, if_pos h]
  rfl

theorem exec_crcCompute_of_le (ps : PolySel) {off len : Nat} (s : State) (h : off + len ≤ 256) :
    exec (.crcCompute ps off len) s =
      .next { s with result := ⟨.ok, 0x01, crcOf ps (s.buf.bytes off len) s.crcSeed⟩ } := by
  rw [exec_crcCompute, execCrcCompute, if_neg h.not_gt]
  rfl

@[simp] theorem Memory.bytes_zero (m : Memory) (off : Nat) : m.bytes off 0 = [] := rfl

/-- Settles O29: a range of no bytes is in the buffer, and the CRC of no bytes is the seed. -/
theorem crcOfNoBytesIsTheSeed : Obligations.CrcOfNoBytesIsTheSeed := by
  intro off s hoff
  have hle : off + 0 ≤ 256 := by omega
  constructor <;> rw [exec_crcCompute_of_le _ s hle, Memory.bytes_zero, crcOf_nil]

/-! ### The two polynomials and the final inversion (R171) -/

/-- The polynomial PS selects. -/
def crcPoly (ps : PolySel) : Half := if ps = .ibm then 0x8005 else 0x1021

/-- The final step of the engine: the inversion for IBM. -/
def crcFinal (ps : PolySel) (c : Half) : Half := if ps = .ibm then ~~~c else c

@[simp] theorem crcFinal_crcFinal (ps : PolySel) (c : Half) : crcFinal ps (crcFinal ps c) = c := by
  cases ps with
  | ibm => exact BitVec.not_not
  | alt => rfl

/-- A CRC is the register after its bytes, then the final step. -/
theorem crcOf_eq_crcFinal (ps : PolySel) (bytes : List Byte) (seed : Half) :
    crcOf ps bytes seed = crcFinal ps (crc16 bytes (crcPoly ps) seed false) := by
  cases ps <;> rfl

/-! ### The register after each bit (R172, R173) -/

/-- A fold over the indices below `n` ends at `c n` when `c` makes the same steps. -/
theorem foldl_range_eq {α : Type} {f : α → Nat → α} (c : Nat → α) {n : Nat}
    (hstep : ∀ k, k < n → c (k + 1) = f (c k) k) : (List.range n).foldl f (c 0) = c n := by
  induction n with
  | zero => rfl
  | succ n ih =>
    rw [List.range_succ, List.foldl_append, ih fun k hk => hstep k (by omega)]
    exact (hstep n n.lt_succ_self).symm

/-- One byte is eight shifts, its bits from bit 7 down. -/
theorem crcStep_eq_of_bits {poly : Half} {b : Byte} (c : Nat → Half)
    (hbit : ∀ i, i < 8 → c (i + 1) = crcShift poly (c i) (b.getLsbD (7 - i))) : crcStep poly (c 0) b = c 8 :=
  foldl_range_eq (f := fun c i => crcShift poly c (b.getLsbD (7 - i))) c hbit

/-- The register after a run of bytes is the one the recurrence over their bits reaches. -/
theorem crc16_eq_of_bits {poly : Half} {byte : Nat → Byte} {len : Nat} (c : Nat → Half)
    (hbit : ∀ k, k < 8 * len → c (k + 1) = crcShift poly (c k) ((byte (k / 8)).getLsbD (7 - k % 8))) :
    crc16 ((List.range len).map byte) poly (c 0) false = c (8 * len) := by
  have hbyte : ∀ n, n < len → c (8 * (n + 1)) = crcStep poly (c (8 * n)) (byte n) := by
    intro n hn
    refine (crcStep_eq_of_bits (fun i => c (8 * n + i)) fun i hi => ?_).symm
    have hk := hbit (8 * n + i) (by omega)
    rwa [show (8 * n + i) / 8 = n by omega, show (8 * n + i) % 8 = i by omega] at hk
  exact List.foldl_map.trans (foldl_range_eq (fun n => c (8 * n)) hbyte)

/-- Settles O28: the range check decides, and the recurrence over the bits of the range is the engine's. -/
theorem crcComputeReportsTheCrcOfTheRange : Obligations.CrcComputeReportsTheCrcOfTheRange := by
  refine ⟨fun ps off len s h => exec_crcCompute_of_range ps s h,
    fun off len s h => ⟨exec_crcCompute_of_le .ibm s h, exec_crcCompute_of_le .alt s h⟩, ?_⟩
  intro ps off len s c h hseed hbit
  have hreg : crc16 (s.buf.bytes off len) (crcPoly ps) s.crcSeed false = c (8 * len) := by
    rw [← hseed]
    exact crc16_eq_of_bits c fun k hk => (hbit k hk).trans (crcShift_eq _ _ _).symm
  rw [exec_crcCompute_of_le ps s h, crcOf_eq_crcFinal, hreg, crcFinal]

/-! ### Linearity over GF(2) (R174) -/

/-- One shift adds the shifted register and the polynomial or nothing. -/
theorem crcShift_eq_xor (poly c : Half) (bit : Bool) :
    crcShift poly c bit = c <<< 1 ^^^ (if c.getLsbD 15 ^^ bit then poly else 0#16) := by
  rw [crcShift_eq]
  cases c.getLsbD 15 <;> cases bit <;> simp

/-- Two times the polynomial is nothing: its multiples add as the bits that select them. -/
theorem ite_xor_eq_xor_ite (poly : Half) (p q : Bool) :
    (if p ^^ q then poly else 0#16) = (if p then poly else 0#16) ^^^ (if q then poly else 0#16) := by
  cases p <;> cases q <;> simp

theorem crcShift_xor (poly c d : Half) (p q : Bool) :
    crcShift poly (c ^^^ d) (p ^^ q) = crcShift poly c p ^^^ crcShift poly d q := by
  have hbits : ((c ^^^ d).getLsbD 15 ^^ (p ^^ q)) = ((c.getLsbD 15 ^^ p) ^^ (d.getLsbD 15 ^^ q)) := by
    rw [BitVec.getLsbD_xor, Bool.xor_assoc, Bool.xor_left_comm (d.getLsbD 15) p q, ← Bool.xor_assoc]
  rw [crcShift_eq_xor, hbits, ite_xor_eq_xor_ite, BitVec.shiftLeft_xor_distrib, crcShift_eq_xor, crcShift_eq_xor]
  ac_rfl

theorem foldl_crcShift_xor (poly : Half) (f g : Nat → Bool) (l : List Nat) (c d : Half) :
    l.foldl (fun c i => crcShift poly c (f i ^^ g i)) (c ^^^ d) =
      l.foldl (fun c i => crcShift poly c (f i)) c ^^^ l.foldl (fun c i => crcShift poly c (g i)) d := by
  induction l generalizing c d with
  | nil => rfl
  | cons i rest ih =>
    simp only [List.foldl_cons, crcShift_xor]
    exact ih _ _

theorem crcStep_xor (poly c d : Half) (x y : Byte) :
    crcStep poly (c ^^^ d) (x ^^^ y) = crcStep poly c x ^^^ crcStep poly d y := by
  simp only [crcStep, BitVec.getLsbD_xor]
  exact foldl_crcShift_xor poly _ _ _ c d

/-- Settles O30: each byte's step is linear, and the fold takes the two strings in step. -/
theorem crcRegisterIsLinear : Obligations.CrcRegisterIsLinear := by
  intro poly a b x y hlen
  induction x generalizing a b y with
  | nil =>
    obtain rfl := List.eq_nil_of_length_eq_zero hlen.symm
    rfl
  | cons v x ih =>
    cases y with
    | nil => cases hlen
    | cons w y =>
      calc crc16 (List.zipWith (· ^^^ ·) (v :: x) (w :: y)) poly (a ^^^ b) false
        _ = crc16 (List.zipWith (· ^^^ ·) x y) poly (crcStep poly a v ^^^ crcStep poly b w) false := by
          rw [← crcStep_xor]
          rfl
        _ = crc16 (v :: x) poly a false ^^^ crc16 (w :: y) poly b false := ih _ _ y (Nat.succ.inj hlen)

/-! ### Concatenation and chaining (R177) -/

theorem crcOf_append (ps : PolySel) (x y : List Byte) (seed : Half) :
    crcOf ps (x ++ y) seed = crcOf ps y (crcFinal ps (crcOf ps x seed)) := by
  simp only [crcOf_eq_crcFinal, crcFinal_crcFinal, crc16_append]

/-- Adjoining ranges of FRAME_BUF. -/
theorem Memory.bytes_add (m : Memory) (off k l : Nat) :
    m.bytes off (k + l) = m.bytes off k ++ m.bytes (off + k) l := by
  simp only [bytes, List.range_add, List.map_append, List.map_map, Function.comp_def, Nat.add_assoc]

/-- Settles O31: the CRC of a concatenation continues from the uninverted register, which is what the host writes to
CRC_SEED between the two commands. -/
theorem crcChainsAcrossCommands : Obligations.CrcChainsAcrossCommands := by
  refine ⟨crcOf_append .alt, crcOf_append .ibm, ?_⟩
  intro ps off k l s t u whole h ht hu hwhole
  rw [exec_crcCompute_of_le ps _ (by omega)] at ht hu hwhole
  cases ht
  cases hu
  cases hwhole
  rw [Memory.bytes_add, crcOf_append, crcFinal]

end Sys2Proof.Machine
end

section
/-! PROOF. The event queues and the arbiter (43_event_queues.md): each command by the content of the queue it serves, runs
of pushes and of pops, and which steps take a cold event. -/

namespace Sys2Proof.Machine

open Sys2Proof

/-! ### Q_PUSH and Q_POP by the content of the queue -/

/-- Settles O49: the three outcomes of a push exclude one another. -/
theorem pushAppendsTheEvent : Obligations.PushAppendsTheEvent := by
  intro q hp kind handle len s
  rcases execQPush_cases q hp kind handle len s with ⟨hk, e⟩ | ⟨hk, hfull, e⟩ | ⟨hk, hroom, x, hx, e⟩
  · exact ⟨fun _ => e, fun h => by omega, fun h => by omega⟩
  · exact ⟨fun h => by omega, fun _ _ => e, fun _ h => by omega⟩
  · refine ⟨fun h => by omega, fun _ h => by omega, fun _ _ => ⟨x, hx, ?_⟩⟩
    rw [exec_qPush, e, hx, List.length_append]
    rfl

section
variable {q : QueueId} {s : State}

/-- Taking an event from an empty queue clears EVT_OUT and reports EMPTY (R199). -/
theorem takeEvent_of_nil (op : Byte) (h : (s.queue q).content = []) :
    takeEvent op q s = (s.setEvtOut evtOutNone).report op .empty 0 := by
  rcases takeEvent_spec op q s with ⟨_, e⟩ | ⟨ev, x, _, hx, _⟩
  · exact e
  · rw [h] at hx
    cases hx

/-- Taking an event moves the oldest one to EVT_OUT and leaves the rest (R199). -/
theorem takeEvent_of_cons (op : Byte) {e : Event} {rest : List Event} (h : (s.queue q).content = e :: rest) :
    ∃ x : Queue, x.content = rest ∧
      takeEvent op q s =
        ((s.setQueue q x).setEvtOut (evtOutOf q e)).report op .ok (BitVec.ofNat 16 rest.length) := by
  rcases takeEvent_spec op q s with ⟨hnil, _⟩ | ⟨ev, x, _, hx, htake⟩
  · rw [h] at hnil
    cases hnil
  · rw [h] at hx
    cases hx
    exact ⟨x, rfl, htake⟩

/-- Taking an event from one queue leaves the other (R190). -/
theorem takeEvent_queue_other (op : Byte) {p : QueueId} (hp : p ≠ q) : (takeEvent op q s).queue p = s.queue p := by
  rcases takeEvent_spec op q s with ⟨_, e⟩ | ⟨ev, x, _, _, e⟩
  · simp [e]
  · simp [e, State.queue_setQueue_other s q p x hp]

/-- Taking an event succeeds exactly when there is one. -/
theorem takeEvent_code_ok_iff (op : Byte) : (takeEvent op q s).result.code = .ok ↔ (s.queue q).content ≠ [] := by
  rcases takeEvent_spec op q s with ⟨h, e⟩ | ⟨ev, x, _, h, e⟩
  · simp [e, h]
  · simp [e, h]

end

/-- Settles O50: an empty queue, and the oldest event of any other. -/
theorem popRemovesTheOldestEvent : Obligations.PopRemovesTheOldestEvent := by
  refine fun q s => ⟨fun h => ?_, fun e rest h => ?_⟩
  · exact ⟨_, (exec_qPop q s).trans (congrArg _ (takeEvent_of_nil 0x21 h)), rfl, evtOutWord_evtOutNone⟩
  · obtain ⟨x, hx, e⟩ := takeEvent_of_cons 0x21 h
    exact ⟨x, hx, (exec_qPop q s).trans (congrArg _ e)⟩

/-- Settles O54: either command writes the queue it names alone. -/
theorem queuesAreIndependent : Obligations.QueuesAreIndependent := by
  rintro q p i s t hne (⟨hp, kind, handle, len, rfl⟩ | rfl) h
  · rw [exec_qPush] at h
    rcases execQPush_cases q hp kind handle len s with ⟨_, e⟩ | ⟨_, _, e⟩ | ⟨_, _, x, _, e⟩ <;> rw [e] at h <;> cases h
    · exact State.queue_report ..
    · exact State.queue_report ..
    · rw [State.queue_report, State.queue_setQueue_other s q p x hne]
  · cases h
    exact takeEvent_queue_other 0x21 hne

/-! ### ARB_NEXT by what the queues hold (R203) -/

/-- ARB_NEXT takes from HOTQ when it holds an event, else in Idle from COLDQ when it holds one, else from neither. -/
theorem execArbNext_spec (s : State) :
    (s.hotq.content ≠ [] ∧ execArbNext s = .next (takeEvent 0x22 .hot s)) ∨
    (s.hotq.content = [] ∧ s.smState = 0 ∧ s.coldq.content ≠ [] ∧ execArbNext s = .next (takeEvent 0x22 .cold s)) ∨
    (s.hotq.content = [] ∧ (s.smState ≠ 0 ∨ s.coldq.content = []) ∧
      execArbNext s = .next ((s.setEvtOut evtOutNone).report 0x22 .empty 0)) := by
  unfold execArbNext
  rcases arbiterChoice_spec s with ⟨hhot, e⟩ | ⟨hhot, hidle, hcold, e⟩ | ⟨hhot, hnone, e⟩ <;> rw [e]
  · exact .inl ⟨hhot, rfl⟩
  · exact .inr (.inl ⟨hhot, hidle, hcold, rfl⟩)
  · exact .inr (.inr ⟨hhot, hnone, rfl⟩)

theorem execArbNext_of_hot {s : State} (h : s.hotq.content ≠ []) : execArbNext s = .next (takeEvent 0x22 .hot s) := by
  rcases execArbNext_spec s with ⟨_, e⟩ | ⟨hhot, _⟩ | ⟨hhot, _⟩
  · exact e
  · exact absurd hhot h
  · exact absurd hhot h

theorem execArbNext_of_cold {s : State} (hhot : s.hotq.content = []) (hidle : s.smState = 0)
    (hcold : s.coldq.content ≠ []) : execArbNext s = .next (takeEvent 0x22 .cold s) := by
  rcases execArbNext_spec s with ⟨h, _⟩ | ⟨_, _, _, e⟩ | ⟨_, h | h, _⟩
  · exact absurd hhot h
  · exact e
  · exact absurd hidle h
  · exact absurd h hcold

theorem execArbNext_of_none {s : State} (hhot : s.hotq.content = []) (h : s.smState ≠ 0 ∨ s.coldq.content = []) :
    execArbNext s = .next ((s.setEvtOut evtOutNone).report 0x22 .empty 0) := by
  rcases execArbNext_spec s with ⟨hne, _⟩ | ⟨_, hidle, hcold, _⟩ | ⟨_, _, e⟩
  · exact absurd hhot hne
  · exact absurd h (not_or.mpr ⟨not_not_intro hidle, hcold⟩)
  · exact e

/-- Settles O51: the arbiter's three choices. -/
theorem arbNextServesByPriority : Obligations.ArbNextServesByPriority := by
  refine fun s => ⟨fun e rest h => ?_, fun e rest hhot hidle h => ?_, fun hhot hnone => ?_⟩
  · obtain ⟨x, hx, htake⟩ := takeEvent_of_cons (q := .hot) 0x22 h
    exact ⟨x, hx, (execArbNext_of_hot (by simp [h])).trans (congrArg _ htake)⟩
  · obtain ⟨x, hx, htake⟩ := takeEvent_of_cons (q := .cold) 0x22 h
    exact ⟨x, hx, (execArbNext_of_cold hhot hidle (by simp [h])).trans (congrArg _ htake)⟩
  · exact ⟨_, execArbNext_of_none hhot hnone, rfl, evtOutWord_evtOutNone⟩

/-- Settles O57: the arbiter takes the oldest hot event. -/
theorem hotEventsComeFirst : Obligations.HotEventsComeFirst := by
  intro s t hne h
  obtain ⟨e, rest, hcons⟩ := List.exists_cons_of_ne_nil hne
  obtain ⟨hserve, -, -⟩ := arbNextServesByPriority s
  obtain ⟨x, _, hexec⟩ := hserve e rest hcons
  rw [hexec] at h
  cases h
  exact ⟨rfl, rfl, rfl, rfl⟩

/-- ELIGIBLE in terms of what the queues hold (R25). -/
theorem State.eligible_iff_content (s : State) :
    s.eligible = true ↔ s.hotq.content ≠ [] ∨ (s.smState = 0 ∧ s.coldq.content ≠ []) := by
  simp only [s.eligible_iff, ne_eq, Queue.content_eq_nil_iff, Nat.pos_iff_ne_zero]

/-- Settles O58: the arbiter serves a queue, and so one that holds an event, exactly when ELIGIBLE says so. -/
theorem eligibleForetellsArbNext : Obligations.EligibleForetellsArbNext := by
  intro s
  obtain ⟨-, -, -, -, h20⟩ := statusWord_bits s
  rw [readReg, h20, s.eligible_iff_content, exec_arbNext]
  rcases execArbNext_spec s with ⟨hhot, e⟩ | ⟨hhot, hidle, hcold, e⟩ | ⟨hhot, hnone, e⟩ <;> rw [e]
  · exact iff_of_true (.inl hhot) ⟨_, rfl, (takeEvent_code_ok_iff 0x22).mpr hhot⟩
  · exact iff_of_true (.inr ⟨hidle, hcold⟩) ⟨_, rfl, (takeEvent_code_ok_iff 0x22).mpr hcold⟩
  · refine iff_of_false (fun h => ?_) (fun ⟨t, ht, hok⟩ => ?_)
    · rcases h with h | ⟨hidle, hcold⟩
      · exact h hhot
      · exact hnone.elim (fun h => h hidle) hcold
    · cases ht
      cases hok

/-! ### What the queue commands do not touch (R211) -/

/-- The state `s` with the configuration, the codec's registers, CRC_SEED and FRAME_BUF of `u`. -/
def State.withCodec (s u : State) : State :=
  { s with
    buf := u.buf
    frameLen := u.frameLen
    msgHdr := u.msgHdr
    msgAddr := u.msgAddr
    cfgId := u.cfgId
    key := u.key
    crcSeed := u.crcSeed }

@[simp] theorem State.queue_withCodec (s u : State) (q : QueueId) : (s.withCodec u).queue q = s.queue q := by
  cases q <;> rfl

@[simp] theorem State.setQueue_withCodec (s u : State) (q : QueueId) (x : Queue) :
    (s.withCodec u).setQueue q x = (s.setQueue q x).withCodec u := by
  cases q <;> rfl

@[simp] theorem State.setEvtOut_withCodec (s u : State) (e : EvtOut) :
    (s.withCodec u).setEvtOut e = (s.setEvtOut e).withCodec u := rfl

@[simp] theorem State.report_withCodec (s u : State) (op : Byte) (c : ResultCode) (v : Half) :
    (s.withCodec u).report op c v = (s.report op c v).withCodec u := rfl

theorem takeEvent_withCodec (op : Byte) (q : QueueId) (s u : State) :
    takeEvent op q (s.withCodec u) = (takeEvent op q s).withCodec u := by
  simp only [takeEvent, State.queue_withCodec]
  cases (s.queue q).pop <;> simp

/-- The operation completes, and does the same whatever the codec's state is. -/
def IgnoresCodec (f : State → Host.Outcome State Fault Refusal) (s : State) : Prop :=
  ∃ t : State, f s = .next t ∧ ∀ u, f (s.withCodec u) = .next (t.withCodec u)

theorem execQPush_ignoresCodec (q : QueueId) (hp : Bool) (kind : Nat) (handle len : Byte) (s : State) :
    IgnoresCodec (execQPush q hp kind handle len) s := by
  refine ⟨_, rfl, fun u => ?_⟩
  simp only [execQPush, State.queue_withCodec]
  split_ifs
  · rfl
  · cases (s.queue q).push ⟨BitVec.ofNat 4 kind, hp, handle, len⟩ <;> simp

theorem execArbNext_ignoresCodec (s : State) : IgnoresCodec execArbNext s := by
  have hchoice : ∀ u, arbiterChoice (s.withCodec u) = arbiterChoice s := fun _ => rfl
  refine ⟨_, rfl, fun u => ?_⟩
  simp only [execArbNext, hchoice, takeEvent_withCodec]
  cases arbiterChoice s <;> rfl

/-- Settles O53: the queue commands commute with a change of the codec's state, and their frame leaves it. -/
theorem queueCommandsIgnoreTheCodec : Obligations.QueueCommandsIgnoreTheCodec := by
  intro i s m len h a c k seed hi
  have hign : IgnoresCodec (exec i) s := by
    rcases hi with ⟨q, hp, kind, handle, len, rfl⟩ | ⟨q, rfl⟩ | rfl
    · exact execQPush_ignoresCodec q hp kind handle len s
    · exact ⟨_, rfl, fun u => congrArg _ (takeEvent_withCodec 0x21 q s u)⟩
    · exact execArbNext_ignoresCodec s
  obtain ⟨t, ht, hcodec⟩ := hign
  have hframe := (queueCommandsFrame i s t hi ht).1
  refine ⟨t, ht, by rw [hframe], by rw [hframe], by rw [hframe], by rw [hframe], by rw [hframe], by rw [hframe],
    by rw [hframe], ?_⟩
  exact hcodec { s with buf := m, frameLen := len, msgHdr := h, msgAddr := a, cfgId := c, key := k, crcSeed := seed }

/-! ### Runs of pushes and pops (R207) -/

theorem runCommands_cons {i : Instr} {s t : State} (h : exec i s = .next t) (is : List Instr) :
    runCommands (i :: is) s = runCommands is t := by
  simp only [runCommands, h]

theorem runCommands_append {is : List Instr} {s t : State} (h : runCommands is s = .next t) (js : List Instr) :
    runCommands (is ++ js) s = runCommands js t := by
  induction is generalizing s with
  | nil => cases h; rfl
  | cons i is ih =>
    obtain ⟨u, hu, _⟩ := exec_effect i s
    rw [runCommands_cons hu] at h
    rw [List.cons_append, runCommands_cons hu, ih h]

/-- A run extended by one command. -/
theorem runCommands_snoc {is : List Instr} {i : Instr} {s t u : State} (h : runCommands is s = .next t)
    (hi : exec i t = .next u) : runCommands (is ++ [i]) s = .next u := by
  rw [runCommands_append h, runCommands_cons hi, runCommands]

/-- A push of an acceptable event into a queue with room (R195). -/
theorem exec_pushOf_of_room {q : QueueId} {e : Event} {s : State} (hkind : e.kind.toNat < 13)
    (hroom : (s.queue q).content.length < 16) :
    ∃ t, exec (pushOf q e) s = .next t ∧ (t.queue q).content = (s.queue q).content ++ [e] ∧
      t.result = ⟨.ok, 0x20, BitVec.ofNat 16 ((s.queue q).content.length + 1)⟩ := by
  obtain ⟨-, -, happend⟩ := pushAppendsTheEvent q e.hp e.kind.toNat e.handle e.len s
  obtain ⟨x, hx, hexec⟩ := happend hkind hroom
  refine ⟨_, hexec, ?_, rfl⟩
  rw [State.queue_ignores_result, State.queue_setQueue_same, hx, BitVec.ofNat_toNat, BitVec.setWidth_eq]

/-- A push of an acceptable event into a full queue (R195). -/
theorem exec_pushOf_of_full {q : QueueId} {e : Event} {s : State} (hkind : e.kind.toNat < 13)
    (hfull : (s.queue q).content.length = 16) :
    ∃ t, exec (pushOf q e) s = .next t ∧ t.queue q = s.queue q ∧ t.result = ⟨.full, 0x20, 0⟩ := by
  obtain ⟨-, hpush, -⟩ := pushAppendsTheEvent q e.hp e.kind.toNat e.handle e.len s
  exact ⟨_, hpush hkind hfull, State.queue_ignores_result .., rfl⟩

/-- A pop of a queue that holds an event (R199). -/
theorem exec_qPop_of_cons {q : QueueId} {e : Event} {rest : List Event} {s : State}
    (h : (s.queue q).content = e :: rest) :
    ∃ t, exec (.qPop q) s = .next t ∧ (t.queue q).content = rest ∧
      t.result = ⟨.ok, 0x21, BitVec.ofNat 16 rest.length⟩ ∧
      t.evtOut = ⟨true, q, e.hp, e.kind, e.handle, e.len⟩ := by
  obtain ⟨x, hx, htake⟩ := takeEvent_of_cons 0x21 h
  exact ⟨_, (exec_qPop q s).trans (congrArg _ htake), by simp [hx], rfl, rfl⟩

/-- As many pushes as fit leave their events at the end of the queue, in their order. -/
theorem runCommands_pushes {q : QueueId} {evs : List Event} {s : State} (hkinds : ∀ e ∈ evs, e.kind.toNat < 13)
    (hroom : (s.queue q).content.length + evs.length ≤ 16) :
    ∃ t, runCommands (evs.map (pushOf q)) s = .next t ∧ (t.queue q).content = (s.queue q).content ++ evs := by
  induction evs generalizing s with
  | nil => exact ⟨s, rfl, (List.append_nil _).symm⟩
  | cons e evs ih =>
    rw [List.length_cons] at hroom
    obtain ⟨hkind, hkinds⟩ := List.forall_mem_cons.mp hkinds
    obtain ⟨u, hu, hcontent, _⟩ := exec_pushOf_of_room hkind (s := s) (q := q) (by omega)
    obtain ⟨t, ht, htcontent⟩ := ih hkinds (s := u) (by rw [hcontent, List.length_append, List.length_singleton]; omega)
    refine ⟨t, (runCommands_cons hu _).trans ht, ?_⟩
    rw [htcontent, hcontent, List.append_assoc, List.singleton_append]

/-- `k` pops take away the `k` oldest events. -/
theorem runCommands_pops {q : QueueId} {k : Nat} {s : State} (hk : k ≤ (s.queue q).content.length) :
    ∃ t, runCommands (List.replicate k (.qPop q)) s = .next t ∧ (t.queue q).content = (s.queue q).content.drop k := by
  induction k generalizing s with
  | zero => exact ⟨s, rfl, rfl⟩
  | succ k ih =>
    obtain ⟨e, rest, hcons⟩ := List.exists_cons_of_length_pos (Nat.zero_lt_of_lt hk)
    obtain ⟨u, hu, hcontent, _⟩ := exec_qPop_of_cons hcons
    rw [hcons, List.length_cons] at hk
    obtain ⟨t, ht, htcontent⟩ := ih (s := u) (by rw [hcontent]; omega)
    refine ⟨t, (runCommands_cons hu _).trans ht, ?_⟩
    rw [htcontent, hcontent, hcons, List.drop_succ_cons]

/-- The first `k + 1` pushes into an empty queue, and the result of the last of them. -/
theorem runCommands_take_succ_pushes {q : QueueId} {s : State} {evs : List Event} (hempty : (s.queue q).content = [])
    (hkinds : ∀ e ∈ evs, e.kind.toNat < 13) {k : Nat} (hk : k < 16) (hlt : k < evs.length) :
    ∃ t, runCommands ((evs.take (k + 1)).map (pushOf q)) s = .next t ∧
      t.result = ⟨.ok, 0x20, BitVec.ofNat 16 (k + 1)⟩ ∧ (t.queue q).content = evs.take (k + 1) := by
  have hlen : (evs.take k).length = k := List.length_take_of_le hlt.le
  obtain ⟨u, hu, hcontent⟩ := runCommands_pushes (s := s) (q := q) (evs := evs.take k)
    (fun e he => hkinds e (List.mem_of_mem_take he)) (by rw [hempty, hlen, List.length_nil]; omega)
  rw [hempty, List.nil_append] at hcontent
  obtain ⟨t, ht, htcontent, hresult⟩ := exec_pushOf_of_room (s := u) (q := q)
    (hkinds _ (List.getElem_mem hlt)) (by rw [hcontent, hlen]; exact hk)
  rw [hcontent, hlen] at hresult
  refine ⟨t, ?_, hresult, ?_⟩
  · rw [← List.take_append_getElem hlt, List.map_append]
    exact runCommands_snoc hu ht
  · rw [htcontent, hcontent, List.take_append_getElem]

/-- Seventeen pushes into an empty queue: the last finds it full with the first sixteen events (R207). -/
theorem runCommands_seventeen_pushes {q : QueueId} {s : State} {evs : List Event}
    (hempty : (s.queue q).content = []) (hlen : evs.length = 17) (hkinds : ∀ e ∈ evs, e.kind.toNat < 13) :
    ∃ t, runCommands (evs.map (pushOf q)) s = .next t ∧ t.result = ⟨.full, 0x20, 0⟩ ∧
      (t.queue q).content = evs.take 16 := by
  have hlt : 16 < evs.length := by omega
  obtain ⟨u, hu, _, hcontent⟩ := runCommands_take_succ_pushes hempty hkinds (k := 15) (by omega) (by omega)
  obtain ⟨t, ht, hqueue, hresult⟩ := exec_pushOf_of_full (s := u) (q := q) (hkinds _ (List.getElem_mem hlt))
    (by rw [hcontent, List.length_take_of_le hlt.le])
  refine ⟨t, ?_, hresult, by rw [hqueue, hcontent]⟩
  have hsplit : evs = evs.take 16 ++ [evs[16]] := by
    rw [List.take_append_getElem, List.take_of_length_le hlen.le]
  rw [hsplit, List.map_append]
  exact runCommands_snoc hu ht

/-- Settles O55: the pushes fill the queue, and each pop after them takes the oldest event of what they left. -/
theorem sixteenEventsFitAndComeBackInOrder : Obligations.SixteenEventsFitAndComeBackInOrder := by
  intro q s evs hempty hlen hkinds
  obtain ⟨u, hu, hfull, hcontent⟩ := runCommands_seventeen_pushes hempty hlen hkinds
  refine ⟨fun k h1 h16 => ?_, ⟨u, hu, hfull, hcontent⟩, fun k e hk he => ?_⟩
  · obtain ⟨k, rfl⟩ : ∃ j, k = j + 1 := ⟨k - 1, by omega⟩
    exact runCommands_take_succ_pushes hempty hkinds (by omega) (by omega)
  · have hheld : (u.queue q).content.length = 16 := by rw [hcontent, List.length_take_of_le (by omega)]
    obtain ⟨v, hv, hdrop⟩ := runCommands_pops (s := u) (q := q) (k := k) (by omega)
    have holdest : (v.queue q).content = e :: (u.queue q).content.drop (k + 1) := by
      rw [hdrop, List.drop_eq_getElem?_toList_append, hcontent, List.getElem?_take_of_lt hk, he]
      rfl
    obtain ⟨t, ht, _, hresult, hevt⟩ := exec_qPop_of_cons holdest
    rw [List.length_drop, hheld] at hresult
    refine ⟨t, ?_, by rw [hresult, show 16 - (k + 1) = 15 - k by omega], hevt⟩
    rw [runCommands_append hu, List.replicate_succ']
    exact runCommands_snoc hv ht

/-! ### Cold events (R205) -/

/-- A command keeps the cold events in their places, but for a pop of COLDQ and an ARB_NEXT in Idle with HOTQ empty. -/
theorem exec_coldq_cases {i : Instr} {s t : State} (h : exec i s = .next t) :
    (∃ added, t.coldq.content = s.coldq.content ++ added) ∨ i = .qPop .cold ∨
    (i = .arbNext ∧ s.smState = 0 ∧ s.hotq.content = []) := by
  have keeps : t.coldq = s.coldq → ∃ added, t.coldq.content = s.coldq.content ++ added :=
    fun hsame => ⟨[], by rw [hsame, List.append_nil]⟩
  by_cases htake : takesEvent i = true
  · rcases (takesEvent_iff i).mp htake with ⟨q, rfl⟩ | rfl
    · cases q with
      | hot =>
        cases h
        exact .inl (keeps (takeEvent_queue_other (p := .cold) 0x21 (by decide)))
      | cold => exact .inr (.inl rfl)
    · rw [exec_arbNext] at h
      rcases execArbNext_spec s with ⟨_, e⟩ | ⟨hhot, hidle, _⟩ | ⟨_, _, e⟩
      · cases e.symm.trans h
        exact .inl (keeps (takeEvent_queue_other (p := .cold) 0x22 (by decide)))
      · exact .inr (.inr ⟨rfl, hidle, hhot⟩)
      · cases e.symm.trans h
        exact .inl (keeps rfl)
  · cases effect_of_exec h with
    | pushes q hp handle len x hkind hx =>
      cases q with
      | hot => exact .inl (keeps rfl)
      | cold => exact .inl ⟨_, hx⟩
    | takes hi => exact absurd hi htake
    | _ => exact .inl (keeps rfl)

/-- Settles O56: COLDQ changes by a reset or a command alone. -/
theorem coldEventsStayUntilIdle : Obligations.ColdEventsStayUntilIdle := by
  intro s t hstep
  by_cases hsame : t.coldq = s.coldq
  · exact .inl ⟨[], by rw [hsame, List.append_nil]⟩
  rcases step_changes State.coldq (fun _ _ _ _ => rfl) hstep hsame with hreset | ⟨r, w, rest, hpend, hw⟩
  · exact .inr (.inl hreset)
  · obtain rfl : r = .cmd := by
      by_contra hr
      exact hsame (by rw [writeReg_frame hr hw])
    rcases execWord_cases w { s with pending := rest, response := .done } with ⟨i, hdec, e⟩ | e
    · rcases exec_coldq_cases (e.symm.trans hw) with happend | rfl | ⟨rfl, hidle, hhot⟩
      · exact .inl happend
      · exact .inr (.inr (.inl ⟨w, rest, hpend, hdec⟩))
      · exact .inr (.inr (.inr ⟨w, rest, hpend, hdec, hidle, hhot⟩))
    · cases e.symm.trans hw
      exact absurd rfl hsame

end Sys2Proof.Machine
end

section
/-! PROOF. Completion of the commands (60_exceptions.md R222). -/

namespace Sys2Proof.Machine

open Sys2Proof

/-- Settles O9: `exec_effect`, by its case split over the seven commands, gives each the state that it ends in. -/
theorem everyCommandCompletes : Obligations.EveryCommandCompletes := by
  intro i s
  obtain ⟨t, ht, _⟩ := exec_effect i s
  exact ⟨t, ht⟩

end Sys2Proof.Machine
end

section
/-! PROOF. Reset (70_reset_and_hazards.md R250): the values of the reset state, and the reset input as a step. -/

namespace Sys2Proof.Machine

open Sys2Proof

/-! ### The pieces of the reset state -/

/-- Every word of KEY is 0 (R250). -/
theorem readReg_key_reset (i : Fin 4) : readReg State.reset (.key i) = 0 :=
  Vector.getElem_replicate i.isLt

/-- After reset a queue has no content, whatever its slots hold (R33). -/
@[simp] theorem Queue.content_reset : Queue.reset.content = [] :=
  (Queue.content_eq_nil_iff _).mpr rfl

/-! ### The reset input -/

/-- The reset input resets the block in one step, and the events behind it wait on. -/
theorem step_reset {s : State} {rest : List PortEvent} (h : s.pending = .reset :: rest) :
    step s = .next (State.resetBlock { s with pending := rest }) :=
  step_event h

/-- After the reset input every FRAME_BUF byte is the draw of that reset: no byte is written (R36). -/
theorem State.read_resetBlock (s : State) (i : Nat) :
    s.resetBlock.buf.read i = Config.resetByte (s.buf.epoch + 1) i := rfl

/-! ### The statements -/

/-- Settles O10: STATUS by the statement of its own (O22), EVT_OUT as the word of a register that holds no event, and
each other register as the word of its fields. -/
theorem resetStateHoldsTheResetValues : Obligations.ResetStateHoldsTheResetValues := by
  obtain ⟨_, hstatus, _⟩ := statusShowsQueuesAndEligibility
  have hevt : readReg State.reset .evtOut = 0 := State.inv_reset.evtZero rfl
  exact ⟨by decide, hstatus, by decide, by decide, readReg_key_reset, by decide, by decide, by decide, by decide,
    hevt, rfl, rfl, rfl, rfl, rfl⟩

/-- Settles O11: the step of the reset input ends in `State.resetBlock`, whose queues are those of the reset state. -/
theorem resetInputReplacesTheState : Obligations.ResetInputReplacesTheState := by
  intro s rest hpend
  exact ⟨_, step_reset hpend, rfl, rfl, rfl, Queue.content_reset, rfl, rfl, Queue.content_reset,
    State.read_resetBlock _⟩

/-- Settles O12: `State.inv_reset`, the base case of the induction whose step is O13. -/
theorem resetStateMeetsTheInvariant : Obligations.ResetStateMeetsTheInvariant :=
  State.inv_reset

end Sys2Proof.Machine
end
